-- ==== Sys2Proof/Word.lean ====
section
/-! DEFINITION. The word of the machine: "the sole unit of storage, addressing, and instruction
encoding" (spec/00_scope.md R7), the byte the terminal deals in (R10), and a register index (R15).
`+` and `-` on `BitVec 16` are the spec's modulo-2^16 arithmetic (R11). -/

namespace Sys2Proof

/-- A word: 16 bits, unsigned (R7). An address is a word too (R30). -/
abbrev Word := BitVec 16

/-- A byte, as the terminal supplies and takes it (R10). -/
abbrev Byte := BitVec 8

/-- A register index: a 3-bit field, so no index is out of bounds (R15). -/
abbrev RegIdx := BitVec 3

end Sys2Proof
end

