-- ==== Sys2Proof/Syntax.lean ====
section
/-! DEFINITION. The instructions: one constructor per row of spec/opcode_table.json, its operands the
fields of spec/30_encoding.md R55 and R56 as raw bits. Bits the block ignores (R62) are no operands. -/

namespace Sys2Proof

/-- An instruction. Register fields are indices; immediates, offsets, the mask and the vector are the
raw fields, which the meanings extend (R57). -/
inductive Instr where
  /-- ADD_reg: `ADD DR, SR1, SR2` (R68). -/
  | addReg (dr sr1 sr2 : RegIdx)
  /-- ADD_imm: `ADD DR, SR1, #imm5` (R69). -/
  | addImm (dr sr1 : RegIdx) (imm5 : BitVec 5)
  /-- AND_reg: `AND DR, SR1, SR2` (R70). -/
  | andReg (dr sr1 sr2 : RegIdx)
  /-- AND_imm: `AND DR, SR1, #imm5` (R71). -/
  | andImm (dr sr1 : RegIdx) (imm5 : BitVec 5)
  /-- NOT: `NOT DR, SR` (R72). -/
  | not (dr sr : RegIdx)
  /-- BR: `BR{n}{z}{p} PCoffset9`; the mask is IR[11:9], n its high bit (R74). -/
  | br (nzp : BitVec 3) (off9 : BitVec 9)
  /-- JMP: `JMP BaseR`; RET is `JMP R7` (R75). -/
  | jmp (baseR : RegIdx)
  /-- JSR: `JSR PCoffset11` (R76). -/
  | jsr (off11 : BitVec 11)
  /-- JSRR: `JSRR BaseR` (R77). -/
  | jsrr (baseR : RegIdx)
  /-- LD: `LD DR, PCoffset9` (R79). -/
  | ld (dr : RegIdx) (off9 : BitVec 9)
  /-- LDI: `LDI DR, PCoffset9` (R80). -/
  | ldi (dr : RegIdx) (off9 : BitVec 9)
  /-- LDR: `LDR DR, BaseR, offset6` (R81). -/
  | ldr (dr baseR : RegIdx) (off6 : BitVec 6)
  /-- LEA: `LEA DR, PCoffset9` (R82). -/
  | lea (dr : RegIdx) (off9 : BitVec 9)
  /-- ST: `ST SR, PCoffset9` (R83). -/
  | st (sr : RegIdx) (off9 : BitVec 9)
  /-- STI: `STI SR, PCoffset9` (R84). -/
  | sti (sr : RegIdx) (off9 : BitVec 9)
  /-- STR: `STR SR, BaseR, offset6` (R85). -/
  | str (sr baseR : RegIdx) (off6 : BitVec 6)
  /-- TRAP: `TRAP trapvect8` (R88). The six defined vectors have constructors of their own, so the
  words of this one are those with an undefined vector (R95, log 23). -/
  | trap (vect8 : Byte)
  /-- TRAP_GETC: `TRAP x20` (R89). -/
  | trapGetc
  /-- TRAP_OUT: `TRAP x21` (R90). -/
  | trapOut
  /-- TRAP_PUTS: `TRAP x22` (R91). -/
  | trapPuts
  /-- TRAP_IN: `TRAP x23` (R92). -/
  | trapIn
  /-- TRAP_PUTSP: `TRAP x24` (R93). -/
  | trapPutsp
  /-- TRAP_HALT: `TRAP x25` (R94). -/
  | trapHalt
  /-- RTI: opcode 1000, fatal (R97). -/
  | rti
  /-- RES: opcode 1101, fatal (R98). -/
  | res
  deriving DecidableEq, Repr

end Sys2Proof
end

