-- ==== Sys2Proof/WellFormed.lean ====
section
/-! DEFINITION. Which terms of `Instr` stand for words. Every field has the width the encoding gives
it, so the one check left is on TRAP: a vector of x20..x25 belongs to the constructor of its routine
(spec/30_encoding.md R60, log 23). -/

namespace Sys2Proof

/-- The vectors with a routine: x20 to x25 (R60, spec/90_conflicts.md C1). -/
def definedVector (v : Byte) : Bool := 0x20 ≤ v.toNat && v.toNat ≤ 0x25

/-- The check: TRAP's own constructor holds an undefined vector. -/
def Instr.wf : Instr → Bool
  | .addReg _ _ _ | .addImm _ _ _ | .andReg _ _ _ | .andImm _ _ _ | .not _ _ => true
  | .br _ _ | .jmp _ | .jsr _ | .jsrr _ => true
  | .ld _ _ | .ldi _ _ | .ldr _ _ _ | .lea _ _ | .st _ _ | .sti _ _ | .str _ _ _ => true
  | .trap v => !definedVector v
  | .trapGetc | .trapOut | .trapPuts | .trapIn | .trapPutsp | .trapHalt => true
  | .rti | .res => true

end Sys2Proof
end

