-- ==== Sys2Proof/Decode.lean ====
section
/-! DEFINITION. Decoding a word (spec/30_encoding.md R53 to R62) and, after it, encoding an
instruction from the same tables. "Pure, total function — every 16-bit input decodes" (R61): no word
is refused; only a byte stream that ends before a whole word is. -/

namespace Sys2Proof

/-! ### Fields of an instruction word (R56) -/

/-- `v[hi:lo]`, given by its low bit and its width (R11). -/
def field (w : Word) (lo width : Nat) : BitVec width := w.extractLsb' lo width

def opcodeOf (w : Word) : BitVec 4 := field w 12 4
/-- DR, or SR of a store, or BR's condition mask: bits 11:9. -/
def drOf (w : Word) : RegIdx := field w 9 3
/-- SR1, BaseR, or SR of NOT: bits 8:6. -/
def sr1Of (w : Word) : RegIdx := field w 6 3
def sr2Of (w : Word) : RegIdx := field w 0 3
def immFlagOf (w : Word) : Bool := w.getLsbD 5
def imm5Of (w : Word) : BitVec 5 := field w 0 5
def off6Of (w : Word) : BitVec 6 := field w 0 6
def off9Of (w : Word) : BitVec 9 := field w 0 9
def off11Of (w : Word) : BitVec 11 := field w 0 11
def longFlagOf (w : Word) : Bool := w.getLsbD 11
def vect8Of (w : Word) : Byte := field w 0 8

/-! ### The opcode map -/

/-- The sixteen tags, "a closed tagged-variant (sum type) over the sixteen opcode tags" (R64). -/
inductive Opcode where
  | br | add | ld | st | jsr | and | ldr | str | rti | not | ldi | sti | jmp | res | lea | trap
  deriving DecidableEq, Repr

/-- R59's map from IR[15:12] to the tag (UNVERIFIED: the rule's numbers are the LC-3's, D1, log 24). -/
def Opcode.ofTag (t : BitVec 4) : Opcode :=
  match t.getLsbD 3, t.getLsbD 2, t.getLsbD 1, t.getLsbD 0 with
  | false, false, false, false => .br
  | false, false, false, true => .add
  | false, false, true , false => .ld
  | false, false, true , true => .st
  | false, true , false, false => .jsr
  | false, true , false, true => .and
  | false, true , true , false => .ldr
  | false, true , true , true => .str
  | true , false, false, false => .rti
  | true , false, false, true => .not
  | true , false, true , false => .ldi
  | true , false, true , true => .sti
  | true , true , false, false => .jmp
  | true , true , false, true => .res
  | true , true , true , false => .lea
  | true , true , true , true => .trap

/-- The tag's four bits, for the encoder (R59). -/
def Opcode.tag : Opcode → BitVec 4
  | .br => 0x0
  | .add => 0x1
  | .ld => 0x2
  | .st => 0x3
  | .jsr => 0x4
  | .and => 0x5
  | .ldr => 0x6
  | .str => 0x7
  | .rti => 0x8
  | .not => 0x9
  | .ldi => 0xA
  | .sti => 0xB
  | .jmp => 0xC
  | .res => 0xD
  | .lea => 0xE
  | .trap => 0xF

/-- TRAP's instruction for a vector: the six routines of R60, TRAP itself for any other vector. -/
def trapOf (v : Byte) : Instr :=
  if v = 0x20 then .trapGetc
  else if v = 0x21 then .trapOut
  else if v = 0x22 then .trapPuts
  else if v = 0x23 then .trapIn
  else if v = 0x24 then .trapPutsp
  else if v = 0x25 then .trapHalt
  else .trap v

/-- Decode a word: the tag picks the instruction, IR[5] the operand form of ADD and AND, IR[11] JSR or
JSRR, IR[7:0] the trap routine (R59, R64). -/
def decode (w : Word) : Instr :=
  match Opcode.ofTag (opcodeOf w) with
  | .br => .br (drOf w) (off9Of w)
  | .add => if immFlagOf w then .addImm (drOf w) (sr1Of w) (imm5Of w) else .addReg (drOf w) (sr1Of w) (sr2Of w)
  | .ld => .ld (drOf w) (off9Of w)
  | .st => .st (drOf w) (off9Of w)
  | .jsr => if longFlagOf w then .jsr (off11Of w) else .jsrr (sr1Of w)
  | .and => if immFlagOf w then .andImm (drOf w) (sr1Of w) (imm5Of w) else .andReg (drOf w) (sr1Of w) (sr2Of w)
  | .ldr => .ldr (drOf w) (sr1Of w) (off6Of w)
  | .str => .str (drOf w) (sr1Of w) (off6Of w)
  | .rti => .rti
  | .not => .not (drOf w) (sr1Of w)
  | .ldi => .ldi (drOf w) (off9Of w)
  | .sti => .sti (drOf w) (off9Of w)
  | .jmp => .jmp (sr1Of w)
  | .res => .res
  | .lea => .lea (drOf w) (off9Of w)
  | .trap => trapOf (vect8Of w)

/-! ### Decoding bytes -/

/-- Why a byte stream gives no instruction. -/
inductive DecodeError where
  /-- Fewer than two bytes are left: no whole word (R50 ignores such a rest). Safe. -/
  | truncated
  deriving DecidableEq, Repr

/-- Decode the first word of a byte stream, big-endian as an image holds words (R40, R50), and answer
the rest of the stream. -/
def decodeBytes : List Byte → Except DecodeError (Instr × List Byte)
  | hi :: lo :: rest => .ok (decode (hi ++ lo), rest)
  | _ => .error .truncated

/-- The instruction the decoder reads from a word numbered as spec/opcode_table.json numbers it: one
16-bit word, the bits above `nbits` zero (R53). -/
def decodeTableWord (nbits w : Nat) : Option Instr :=
  let word : Word := BitVec.ofNat 16 (w % 2 ^ nbits)
  match decodeBytes [word.extractLsb' 8 8, word.extractLsb' 0 8] with
  | .ok (i, _) => some i
  | .error _ => none

/-! ### The opcode table and the encoder -/

/-- A row of spec/opcode_table.json: its mnemonic, the mask of the bits it fixes, their values, and
the mask of the bits the block reads (all but the row's `x` bits, R62). -/
structure OpcodeRow where
  mnemonic : String
  mask : Word
  pattern : Word
  significant : Word
  deriving DecidableEq, Repr

/-- Each constructor's row of the table. -/
def Instr.row : Instr → OpcodeRow
  | .addReg _ _ _ => ⟨"ADD_reg", 0xF020, 0x1000, 0xFFE7⟩
  | .addImm _ _ _ => ⟨"ADD_imm", 0xF020, 0x1020, 0xFFFF⟩
  | .andReg _ _ _ => ⟨"AND_reg", 0xF020, 0x5000, 0xFFE7⟩
  | .andImm _ _ _ => ⟨"AND_imm", 0xF020, 0x5020, 0xFFFF⟩
  | .not _ _ => ⟨"NOT", 0xF000, 0x9000, 0xFFC0⟩
  | .br _ _ => ⟨"BR", 0xF000, 0x0000, 0xFFFF⟩
  | .jmp _ => ⟨"JMP", 0xF000, 0xC000, 0xF1C0⟩
  | .jsr _ => ⟨"JSR", 0xF800, 0x4800, 0xFFFF⟩
  | .jsrr _ => ⟨"JSRR", 0xF800, 0x4000, 0xF9C0⟩
  | .ld _ _ => ⟨"LD", 0xF000, 0x2000, 0xFFFF⟩
  | .ldi _ _ => ⟨"LDI", 0xF000, 0xA000, 0xFFFF⟩
  | .ldr _ _ _ => ⟨"LDR", 0xF000, 0x6000, 0xFFFF⟩
  | .lea _ _ => ⟨"LEA", 0xF000, 0xE000, 0xFFFF⟩
  | .st _ _ => ⟨"ST", 0xF000, 0x3000, 0xFFFF⟩
  | .sti _ _ => ⟨"STI", 0xF000, 0xB000, 0xFFFF⟩
  | .str _ _ _ => ⟨"STR", 0xF000, 0x7000, 0xFFFF⟩
  | .trap _ => ⟨"TRAP", 0xF000, 0xF000, 0xF0FF⟩
  | .trapGetc => ⟨"TRAP_GETC", 0xF0FF, 0xF020, 0xF0FF⟩
  | .trapOut => ⟨"TRAP_OUT", 0xF0FF, 0xF021, 0xF0FF⟩
  | .trapPuts => ⟨"TRAP_PUTS", 0xF0FF, 0xF022, 0xF0FF⟩
  | .trapIn => ⟨"TRAP_IN", 0xF0FF, 0xF023, 0xF0FF⟩
  | .trapPutsp => ⟨"TRAP_PUTSP", 0xF0FF, 0xF024, 0xF0FF⟩
  | .trapHalt => ⟨"TRAP_HALT", 0xF0FF, 0xF025, 0xF0FF⟩
  | .rti => ⟨"RTI", 0xF000, 0x8000, 0xF000⟩
  | .res => ⟨"RES", 0xF000, 0xD000, 0xF000⟩

/-- OPR: opcode, DR, SR1, 0, ignored 4:3, SR2 (R55). -/
def encodeOpr (o : Opcode) (dr sr1 sr2 : RegIdx) : Word := o.tag ++ dr ++ sr1 ++ (0#1 ++ 0#2 ++ sr2)
/-- OPI: opcode, DR, SR1, 1, imm5 (R55). -/
def encodeOpi (o : Opcode) (dr sr1 : RegIdx) (imm5 : BitVec 5) : Word := o.tag ++ dr ++ sr1 ++ (1#1 ++ imm5)
/-- PCREL, and BR with its mask in the register field: opcode, DR or SR, PCoffset9 (R55). -/
def encodePcRel (o : Opcode) (r : RegIdx) (off9 : BitVec 9) : Word := o.tag ++ r ++ off9
/-- BASE: opcode, DR or SR, BaseR, offset6 (R55). -/
def encodeBase (o : Opcode) (r baseR : RegIdx) (off6 : BitVec 6) : Word := o.tag ++ r ++ baseR ++ off6
/-- TRAP: opcode, ignored 11:8, trapvect8 (R55). -/
def encodeTrap (v : Byte) : Word := Opcode.trap.tag ++ 0#4 ++ v

/-- The word of an instruction (R55, R59, R60). Ignored bits are 0, but NOT's bits 5:0 are the
`111111` of "the canonical LC-3 word" (R72; DESIGN CHOICE, log 22). -/
def encode : Instr → Word
  | .addReg dr sr1 sr2 => encodeOpr .add dr sr1 sr2
  | .addImm dr sr1 imm5 => encodeOpi .add dr sr1 imm5
  | .andReg dr sr1 sr2 => encodeOpr .and dr sr1 sr2
  | .andImm dr sr1 imm5 => encodeOpi .and dr sr1 imm5
  | .not dr sr => encodeBase .not dr sr 0x3F
  | .br nzp off9 => encodePcRel .br nzp off9
  | .jmp baseR => encodeBase .jmp 0 baseR 0
  | .jsr off11 => Opcode.jsr.tag ++ 1#1 ++ off11
  | .jsrr baseR => Opcode.jsr.tag ++ 0#1 ++ 0#2 ++ (baseR ++ 0#6)
  | .ld dr off9 => encodePcRel .ld dr off9
  | .ldi dr off9 => encodePcRel .ldi dr off9
  | .ldr dr baseR off6 => encodeBase .ldr dr baseR off6
  | .lea dr off9 => encodePcRel .lea dr off9
  | .st sr off9 => encodePcRel .st sr off9
  | .sti sr off9 => encodePcRel .sti sr off9
  | .str sr baseR off6 => encodeBase .str sr baseR off6
  | .trap v => encodeTrap v
  | .trapGetc => encodeTrap 0x20
  | .trapOut => encodeTrap 0x21
  | .trapPuts => encodeTrap 0x22
  | .trapIn => encodeTrap 0x23
  | .trapPutsp => encodeTrap 0x24
  | .trapHalt => encodeTrap 0x25
  | .rti => Opcode.rti.tag ++ 0#12
  | .res => Opcode.res.tag ++ 0#12

end Sys2Proof
end

