-- ==== Sys2Proof/Config.lean ====
section
/-! DEFINITION. The parameters the spec leaves open (spec/00_scope.md R8): "A model takes each one as
an argument." They are one record of plain data that State carries and no step changes (log 1), so a
statement about every state is a statement about every value of every parameter. -/

namespace Sys2Proof

/-- What TRAP does on a vector outside x20..x25 (R8, spec/92_eei_decisions.md D7). -/
inductive UndefTrapPolicy where
  | fatal
  | noop
  deriving DecidableEq, Repr

/-- How IN widens a byte to a word (R8, D11). -/
inductive InExtend where
  | zero
  | sign
  deriving DecidableEq, Repr

/-- The ten parameters of R8, one field each. -/
structure Config where
  /-- KBSR_ADDR: the address of the keyboard status word (D3). -/
  kbsrAddr : Word
  /-- KBDR_ADDR: the address of the keyboard data word (D3). -/
  kbdrAddr : Word
  /-- PC_START: where a run starts (D4). -/
  pcStart : Word
  /-- GPR_INIT: what R0..R7 hold when a machine is created; OPEN, any value (D5). -/
  gprInit : Vector Word 8
  /-- UNDEF_TRAP_POLICY (D7). -/
  undefTrapPolicy : UndefTrapPolicy
  /-- EOF_SENTINEL: what GETC and IN put in R0 at end-of-input (D8). -/
  eofSentinel : Word
  /-- HALT_NOTICE: what HALT writes; OPEN, any finite byte string (D9). -/
  haltNotice : List Byte
  /-- IN_PROMPT: what IN writes before it reads; OPEN, any finite byte string (D10). -/
  inPrompt : List Byte
  /-- IN_EXTEND (D11). -/
  inExtend : InExtend
  /-- STRING_READ_POLLS: whether the word reads of PUTS and PUTSP poll at KBSR_ADDR (D14). -/
  stringReadPolls : Bool
  deriving DecidableEq, Repr

/-- The one constraint R8 puts on the parameters: KBDR_ADDR is "different from `KBSR_ADDR`". -/
abbrev Config.wf (c : Config) : Prop := c.kbsrAddr ≠ c.kbdrAddr

/-- The defaults of R8. For the three OPEN parameters the values are the ones R8 says the reference is
believed to have: registers 0 (log 2, DESIGN CHOICE), the notice "HALT" and a line feed (log 7,
PRESUMED), the prompt "Enter a character: " (log 8, PRESUMED). No statement rests on those three. -/
def Config.default : Config where
  kbsrAddr := 0xFE00
  kbdrAddr := 0xFE02
  pcStart := 0x3000
  gprInit := Vector.replicate 8 0
  undefTrapPolicy := .fatal
  eofSentinel := 0xFFFF
  haltNotice := [0x48, 0x41, 0x4C, 0x54, 0x0A]
  inPrompt := [0x45, 0x6E, 0x74, 0x65, 0x72, 0x20, 0x61, 0x20, 0x63, 0x68, 0x61, 0x72, 0x61, 0x63,
    0x74, 0x65, 0x72, 0x3A, 0x20]
  inExtend := .zero
  stringReadPolls := false

/-! ### Free values: constants without a body, of which nothing can be proved but their type -/

/-- The bytes of an infinite terminal input, by position: any infinite sequence (spec/10_state.md R28,
log 13). -/
opaque Config.endlessByte : Nat → Byte

/-- Whether a key is pending at a poll, by the poll's number: any sequence of draws (spec/20_memory.md
R34, log 14). -/
opaque Config.keyPending : Nat → Bool

end Sys2Proof
end

