-- ==== Sys2Proof/Machine/State.lean ====
section
/-! DEFINITION. The state of the machine, as plain data (spec/10_state.md), its value at reset (R29,
spec/70_reset_and_hazards.md R115), and the reasons a step could stop. -/

namespace Sys2Proof.Machine

/-- The condition-flag register COND: "exactly one of three mutually exclusive flags" (R20). The 3-bit
code of each value is `Cond.code` in Machine/Flags.lean. -/
inductive Cond where
  /-- NEGATIVE. -/
  | n
  /-- ZERO. -/
  | z
  /-- POSITIVE. -/
  | p
  deriving DecidableEq, Repr

/-- The memory M: cells (address, word), addresses strictly rising and below 65,536, no word 0x0000,
which is what an unlisted address reads as (R29, R30, log 12). -/
abbrev Memory := List (Nat × Word)

/-- The canonical form of a memory: with it, equal memories are equal lists. -/
abbrev Memory.wf (m : Memory) : Prop :=
  m.Pairwise (fun c d => c.1 < d.1) ∧ ∀ c ∈ m, c.1 < 65536 ∧ c.2 ≠ 0

/-- ABORT_CAUSE: why the engine aborted (spec/60_exceptions.md R101). The codes are
`AbortCause.code` in Machine/Ops.lean. -/
inductive AbortCause where
  /-- Opcode 1000 was executed (R97). -/
  | illegalOpcodeRti
  /-- Opcode 1101 was executed (R98). -/
  | illegalOpcodeRes
  /-- TRAP with an undefined vector under the policy fatal (R95). -/
  | undefinedTrap
  deriving DecidableEq, Repr

/-- ABORT_INFO: "the pair of the instruction word and the address it was fetched from" (R26). -/
structure AbortInfo where
  word : Word
  addr : Word
  deriving DecidableEq, Repr

/-- The run state RUN (R25). ABORT_CAUSE and ABORT_INFO are meaningless in RUNNING and HALTED (R26),
so ABORTED carries them (log 18). -/
inductive RunState where
  | running
  | halted
  | aborted (cause : AbortCause) (info : AbortInfo)
  deriving DecidableEq, Repr

/-- Which string routine scans memory: PUTS, one character a word (R91), or PUTSP, two (R93). -/
inductive StringKind where
  | puts
  | putsp
  deriving DecidableEq, Repr

/-- Which routine reads a key: GETC (R89) or IN (R92). -/
inductive KeyKind where
  | getc
  | inKey
  deriving DecidableEq, Repr

/-- What the engine is inside of between two steps (R27). "Neither survives the instruction": the
engine is `idle` but in a scan that found no zero word within 65,536 reads (R96, log 19) and in a
KbdRead on stalled input (R86, log 20). -/
inductive Activity where
  /-- Between two instructions: the next step fetches. -/
  | idle
  /-- Inside PUTS or PUTSP, `addr` the internal scan address. -/
  | scan (kind : StringKind) (addr : Word)
  /-- Inside GETC or IN, waiting in KbdRead. -/
  | wait (kind : KeyKind)
  deriving DecidableEq, Repr

/-- What follows the listed bytes of the terminal input (R28): end-of-input; a user who "never types again
and never closes the input"; or, for an infinite sequence of bytes, the bytes `Config.endlessByte` from
position `next` on, without end (log 13). -/
inductive InputEnd where
  | eof
  | stall
  | endless (next : Nat)
  deriving DecidableEq, Repr

/-- The terminal collaborator, as the block reads and writes it (R28). -/
structure Terminal where
  /-- The bytes not yet consumed, the next one first. -/
  input : List Byte
  /-- What follows them. -/
  inputEnd : InputEnd
  /-- The draws of the coming polls (spec/20_memory.md R34): whether a key is pending by the poll (log
  14). The model's own field: the free value of R34. -/
  polls : List Bool
  /-- How many polls were made past the end of `polls`: their draws are `Config.keyPending` at 0, 1, ...
  (log 14). The model's own field. -/
  drawn : Nat
  /-- The bytes given to TtyWrite, in order. -/
  output : List Byte
  /-- How many of the output bytes TtyFlush has made visible to the host (spec/43_trap.md R87). -/
  flushed : Nat
  deriving DecidableEq, Repr

/-- The state: the parameters of this machine, the register file (R15), PC (R18), COND (R20), IR (R24),
the memory (R30), RUN with the abort record (R25, R26), the activity (R27), the terminal (R28). -/
structure State where
  cfg : Config
  regs : Vector Word 8
  pc : Word
  cond : Cond
  ir : Word
  mem : Memory
  run : RunState
  activity : Activity
  term : Terminal
  deriving DecidableEq, Repr

/-- Why a step could stop with a fault: never. The spec gives every instruction its effect on every
state, and its two stops, HALTED and ABORTED, are states (R25, R99: "The block raises nothing else"),
so the type has no constructor (log 34). -/
inductive Fault : Type
  deriving DecidableEq, Repr

/-- Why a step could be refused. -/
inductive Refusal where
  /-- Raised by an arm of `exec` whose instruction has no meaning yet. Safe: nothing is claimed of the
  instruction. No arm raises it: every instruction has its meaning. -/
  | notModelled (mnemonic : String)
  deriving DecidableEq, Repr

/-- The terminal of a run with the given input: no output yet (R29). -/
def Terminal.ofInput (input : List Byte) (inputEnd : InputEnd) (polls : List Bool) : Terminal where
  input := input
  inputEnd := inputEnd
  polls := polls
  drawn := 0
  output := []
  flushed := 0

/-- A machine instance as it is created (R29, R115), with the given parameters and the host's
terminal: memory all zero, COND = Z, PC = PC_START, R0..R7 = GPR_INIT, RUNNING, no step yet taken. IR
is "meaningless until the first fetch": 0x0000 (DESIGN CHOICE, log 11). -/
def State.resetWith (cfg : Config) (term : Terminal) : State where
  cfg := cfg
  regs := cfg.gprInit
  pc := cfg.pcStart
  cond := .z
  ir := 0
  mem := []
  run := .running
  activity := .idle
  term := term

/-- The machine right after reset: the parameters of R8 at their defaults, registers 0 (log 2), and a
terminal with no input, closed, no poll made yet (DESIGN CHOICE, logs 13 and 14: R29 gives
"the host's"). -/
def State.reset : State := State.resetWith Config.default (Terminal.ofInput [] .eof [])

end Sys2Proof.Machine
end

