-- ==== Sys2Proof/Machine/Flags.lean ====
section
/-! DEFINITION. The condition flags (spec/10_state.md R20 to R22). -/

namespace Sys2Proof.Machine

/-- COND's three bits, one-hot: N = 0b100, Z = 0b010, P = 0b001 (R20; UNVERIFIED: the rule's
own choice, D2, log 25). -/
def Cond.code : Cond → BitVec 3
  | .n => 0b100
  | .z => 0b010
  | .p => 0b001

/-- "ZERO iff value==0; NEGATIVE iff high bit set; POSITIVE otherwise" (R21). -/
def Cond.ofWord (v : Word) : Cond :=
  if v = 0 then .z else if v.msb then .n else .p

/-- SetCC(v) (R21). -/
def State.setCC (s : State) (v : Word) : State := { s with cond := Cond.ofWord v }

/-- BR's test: "(mask & COND) != 0" (spec/41_control.md R74). -/
def Cond.matches (c : Cond) (mask : BitVec 3) : Bool := mask &&& c.code != 0

end Sys2Proof.Machine
end

