-- ==== Sys2Proof/Machine/Operands.lean ====
section
/-! DEFINITION. Operand assembly: extension of fields (spec/00_scope.md R12, spec/30_encoding.md R57)
and the halves of a word that the terminal deals in (spec/20_memory.md R40). Nothing is scaled. -/

namespace Sys2Proof.Machine

/-- `sext_16(f, n)`: "if f[n-1] = 1 then f | (0xFFFF << n) & 0xFFFF else f" (R12). -/
def sext16 {n : Nat} (f : BitVec n) : Word :=
  if f.msb then f.setWidth 16 ||| (0xFFFF#16 <<< n) else f.setWidth 16

/-- `zext_16(f)`: bits above the field are 0 (R12). -/
def zext16 {n : Nat} (f : BitVec n) : Word := f.setWidth 16

/-- `w[7:0]`. -/
def lowByte (w : Word) : Byte := w.extractLsb' 0 8

/-- `w[15:8]`. -/
def highByte (w : Word) : Byte := w.extractLsb' 8 8

/-- The word of two image bytes, "big-endian 16-bit words" (R40, R50). -/
def wordOfBytes (hi lo : Byte) : Word := hi ++ lo

/-- IN's widening of a byte, by IN_EXTEND (spec/43_trap.md R92). -/
def extendKey (e : InExtend) (b : Byte) : Word :=
  match e with
  | .zero => zext16 b
  | .sign => sext16 b

/-- The bytes PUTS writes for a word: its low byte (R91). The bytes PUTSP writes: "low byte first",
"then high byte if non-zero" (R93). -/
def stringBytes (k : StringKind) (w : Word) : List Byte :=
  match k with
  | .puts => [lowByte w]
  | .putsp => if highByte w = 0 then [lowByte w] else [lowByte w, highByte w]

end Sys2Proof.Machine
end

