-- ==== Sys2Proof/Machine/Ops.lean ====
section
/-! DEFINITION. The shared operations: registers, memory, the keyboard poll, the terminal primitives,
the stops, the trap link, the fetch. -/

namespace Sys2Proof.Machine

/-! ### Registers (spec/10_state.md R15) -/

/-- `R[i]`. -/
def State.reg (s : State) (i : RegIdx) : Word := s.regs[i.toNat]'i.isLt

/-- `R[i] <- v`. -/
def State.setReg (s : State) (i : RegIdx) (v : Word) : State :=
  { s with regs := s.regs.set i.toNat v i.isLt }

/-- Write a result register, then the flags from the value "just written", as the last action (R22). -/
def State.writeResult (s : State) (dr : RegIdx) (v : Word) : State := (s.setReg dr v).setCC v

/-! ### Memory as data -/

/-- What an address reads as: its cell's word, or 0x0000 if none is listed (R29). -/
def Memory.lookup : Memory → Nat → Word
  | [], _ => 0
  | (k, v) :: m, a => if k = a then v else Memory.lookup m a

/-- Put a cell before the first cell of a higher address. -/
def Memory.insertCell : Memory → Nat → Word → Memory
  | [], a, v => [(a, v)]
  | (k, w) :: m, a, v => if a < k then (a, v) :: (k, w) :: m else (k, w) :: Memory.insertCell m a v

/-- `M[a]`. -/
def Memory.read (m : Memory) (a : Word) : Word := m.lookup a.toNat

/-- `M[a] <- v`: the address's old cell goes; a word other than 0x0000 gets a cell in its place. -/
def Memory.write (m : Memory) (a v : Word) : Memory :=
  let rest := m.filter (fun c => c.1 != a.toNat)
  if v = 0 then rest else Memory.insertCell rest a.toNat v

/-! ### The terminal primitives (spec/00_scope.md R10) -/

/-- The next unconsumed byte of the input, if there is one (R28). -/
def Terminal.nextKey (t : Terminal) : Option Byte :=
  match t.input, t.inputEnd with
  | b :: _, _ => some b
  | [], .endless next => some (Config.endlessByte next)
  | [], .eof | [], .stall => none

/-- The input once its next byte is consumed: "Consuming a key ... removes it from the input" (R28). -/
def Terminal.dropKey (t : Terminal) : Terminal :=
  match t.input, t.inputEnd with
  | _ :: bs, _ => { t with input := bs }
  | [], .endless next => { t with inputEnd := .endless (next + 1) }
  | [], .eof | [], .stall => t

/-- The draw of the coming poll (R34): a listed one, else the free value at the count of polls. -/
def Terminal.keyPending (t : Terminal) : Bool :=
  match t.polls with
  | p :: _ => p
  | [] => Config.keyPending t.drawn

/-- The draws left once a poll has taken one. -/
def Terminal.dropDraw (t : Terminal) : Terminal :=
  match t.polls with
  | _ :: ps => { t with polls := ps }
  | [] => { t with drawn := t.drawn + 1 }

/-- KbdPoll: never blocks (R33). The poll takes its draw: if a key is pending by now and the input is not
at its end, that key, which is consumed; else none (R34, D12, D13). -/
def Terminal.kbdPoll (t : Terminal) : Option Byte × Terminal :=
  match t.nextKey with
  | some b => if t.keyPending then (some b, t.dropDraw.dropKey) else (none, t.dropDraw)
  | none => (none, t.dropDraw)

/-- What KbdRead finds: a byte, the end of the input, or neither yet (R86). -/
inductive KeyAnswer where
  | byte (b : Byte)
  | eof
  | stall
  deriving DecidableEq, Repr

/-- KbdRead: "takes the next unconsumed byte of the terminal input" (R86). -/
def Terminal.kbdRead (t : Terminal) : KeyAnswer × Terminal :=
  match t.input, t.inputEnd with
  | b :: _, _ => (.byte b, t.dropKey)
  | [], .endless next => (.byte (Config.endlessByte next), t.dropKey)
  | [], .eof => (.eof, t)
  | [], .stall => (.stall, t)

/-- TtyWrite of each byte of a list, in order (R87). -/
def State.ttyWrite (s : State) (bs : List Byte) : State :=
  { s with term := { s.term with output := s.term.output ++ bs } }

/-- TtyFlush: "makes all bytes written so far visible to the host" (R87). -/
def State.ttyFlush (s : State) : State :=
  { s with term := { s.term with flushed := s.term.output.length } }

/-! ### Memory access (spec/20_memory.md R31 to R36) -/

/-- MemWrite(a, v): "plain store, no special-casing" (R35). -/
def State.memWrite (s : State) (a v : Word) : State := { s with mem := s.mem.write a v }

/-- Poll(): ask the terminal once and update both keyboard words (R33). -/
def State.poll (s : State) : State :=
  match s.term.kbdPoll with
  | (some b, t) =>
    (({ s with term := t }).memWrite s.cfg.kbsrAddr 0x8000).memWrite s.cfg.kbdrAddr (zext16 b)
  | (none, t) => ({ s with term := t }).memWrite s.cfg.kbsrAddr 0

/-- MemReadPlain(a): "returns `M[a]` and changes nothing" (R31). -/
def State.memReadPlain (s : State) (a : Word) : Word := s.mem.read a

/-- MemRead(a): polls first if `a = KBSR_ADDR`, then returns `M[a]` (R32). -/
def State.memRead (s : State) (a : Word) : Word × State :=
  if a = s.cfg.kbsrAddr then (s.poll.memReadPlain a, s.poll) else (s.memReadPlain a, s)

/-- RD(a) of PUTS and PUTSP: MemReadPlain, or MemRead if STRING_READ_POLLS (spec/43_trap.md R91). -/
def State.stringRead (s : State) (a : Word) : Word × State :=
  if s.cfg.stringReadPolls then s.memRead a else (s.memReadPlain a, s)

/-! ### Effective addresses (spec/42_load_store.md R78); `pc` is the post-fetch PC -/

/-- PC-relative: `PC + sext_16(IR[8:0], 9)`. -/
def State.eaPcRel (s : State) (off9 : BitVec 9) : Word := s.pc + sext16 off9

/-- Base + offset: `R[BaseR] + sext_16(IR[5:0], 6)`. -/
def State.eaBase (s : State) (baseR : RegIdx) (off6 : BitVec 6) : Word := s.reg baseR + sext16 off6

/-- Indirect: the pointer `MemRead(PC + sext_16(IR[8:0], 9))`, and the state after that read. -/
def State.eaIndirect (s : State) (off9 : BitVec 9) : Word × State := s.memRead (s.eaPcRel off9)

/-! ### Stops and the trap entry (spec/60_exceptions.md) -/

/-- The cause codes of R101. -/
def AbortCause.code : AbortCause → Nat
  | .illegalOpcodeRti => 1
  | .illegalOpcodeRes => 2
  | .undefinedTrap => 3

/-- `raise Abort(cause, (IR, PC - 1))`: RUN <- ABORTED with the record, "no other state changes" (R100);
`PC - 1` is the fetch address, modulo 2^16 (R101). -/
def State.abort (s : State) (cause : AbortCause) : State :=
  { s with run := .aborted cause { word := s.ir, addr := s.pc - 1 } }

/-- Halt(): RUN <- HALTED (R102). -/
def State.halt (s : State) : State := { s with run := .halted }

/-- R7 <- PC, the post-fetch PC: the link of JSR, JSRR and TRAP (R17), and all that trap entry saves
(R105). It does not touch COND (R22). No return from a trap exists: a routine ends inside its TRAP
(R106). -/
def State.link (s : State) : State := s.setReg 7 s.pc

/-! ### The fetch (spec/30_encoding.md R63) -/

/-- `a <- PC; IR <- MemRead(a); PC <- a + 1`. -/
def State.fetch (s : State) : State :=
  let r := s.memRead s.pc
  { r.2 with ir := r.1, pc := s.pc + 1 }

/-- The instruction IR holds: "decoding is a pure function of the raw Word" (R24). -/
def State.current (s : State) : Instr := decode s.ir

end Sys2Proof.Machine
end

