-- ==== Sys2Proof/Machine/Control.lean ====
section
/-! DEFINITION. BR, JMP, JSR and JSRR (spec/41_control.md R73 to R77). `pc` is the post-fetch PC; none of
them touches COND. -/

namespace Sys2Proof.Machine

/-- BR (R74). -/
def execBr (nzp : BitVec 3) (off9 : BitVec 9) (s : State) : Host.Outcome State Fault Refusal :=
  .next (if s.cond.matches nzp then { s with pc := s.pc + sext16 off9 } else s)

/-- JMP; `JMP R7` is RET (R75). -/
def execJmp (baseR : RegIdx) (s : State) : Host.Outcome State Fault Refusal :=
  .next { s with pc := s.reg baseR }

/-- JSR (R76): the target is relative to the post-fetch PC that R7 receives. -/
def execJsr (off11 : BitVec 11) (s : State) : Host.Outcome State Fault Refusal :=
  .next { s.link with pc := s.pc + sext16 off11 }

/-- JSRR (R77): "PC <- R[BaseR]", "read AFTER the R7 write" (D16, log 21). -/
def execJsrr (baseR : RegIdx) (s : State) : Host.Outcome State Fault Refusal :=
  .next { s.link with pc := s.link.reg baseR }

end Sys2Proof.Machine
end

