-- ==== Sys2Proof/Machine/LoadStore.lean ====
section
/-! DEFINITION. LD, LDI, LDR, LEA, ST, STI and STR (spec/42_load_store.md R78 to R85). Loads and the
pointer read of STI are MemReads, which poll at KBSR_ADDR; stores never poll. -/

namespace Sys2Proof.Machine

/-- LD (R79). -/
def execLd (dr : RegIdx) (off9 : BitVec 9) (s : State) : Host.Outcome State Fault Refusal :=
  let r := s.memRead (s.eaPcRel off9)
  .next (r.2.writeResult dr r.1)

/-- LDI (R80): the pointer read, then the datum read, each a MemRead. -/
def execLdi (dr : RegIdx) (off9 : BitVec 9) (s : State) : Host.Outcome State Fault Refusal :=
  let p := s.eaIndirect off9
  let r := p.2.memRead p.1
  .next (r.2.writeResult dr r.1)

/-- LDR (R81). -/
def execLdr (dr baseR : RegIdx) (off6 : BitVec 6) (s : State) : Host.Outcome State Fault Refusal :=
  let r := s.memRead (s.eaBase baseR off6)
  .next (r.2.writeResult dr r.1)

/-- LEA (R82): an address; memory is not read. -/
def execLea (dr : RegIdx) (off9 : BitVec 9) (s : State) : Host.Outcome State Fault Refusal :=
  .next (s.writeResult dr (s.eaPcRel off9))

/-- ST (R83). -/
def execSt (sr : RegIdx) (off9 : BitVec 9) (s : State) : Host.Outcome State Fault Refusal :=
  .next (s.memWrite (s.eaPcRel off9) (s.reg sr))

/-- STI (R84): the pointer read is a MemRead; the store is plain. -/
def execSti (sr : RegIdx) (off9 : BitVec 9) (s : State) : Host.Outcome State Fault Refusal :=
  let p := s.eaIndirect off9
  .next (p.2.memWrite p.1 (p.2.reg sr))

/-- STR (R85). -/
def execStr (sr baseR : RegIdx) (off6 : BitVec 6) (s : State) : Host.Outcome State Fault Refusal :=
  .next (s.memWrite (s.eaBase baseR off6) (s.reg sr))

end Sys2Proof.Machine
end

