-- ==== Sys2Proof/Machine/Reserved.lean ====
section
/-! DEFINITION. RTI and RES (spec/44_reserved.md R97, R98): no handler; executing one aborts, and "no
register, flag or memory word is changed by the instruction itself". -/

namespace Sys2Proof.Machine

/-- RTI (R97). -/
def execRti (s : State) : Host.Outcome State Fault Refusal := .next (s.abort .illegalOpcodeRti)

/-- RES (R98). -/
def execRes (s : State) : Host.Outcome State Fault Refusal := .next (s.abort .illegalOpcodeRes)

end Sys2Proof.Machine
end

