-- ==== Sys2Proof/Machine/Trap.lean ====
section
/-! DEFINITION. TRAP and its six routines (spec/43_trap.md R86 to R96). Every vector writes R7 first,
then its routine runs; a routine that cannot finish in one step leaves its activity in the state, and
`State.resume` goes on with it. -/

namespace Sys2Proof.Machine

/-! ### The routines -/

/-- The end of GETC and IN once KbdRead has answered: R0 <- v, then SetCC(v) (R89, R92). -/
def State.finishKey (s : State) (v : Word) : State := ({ s with activity := .idle }).writeResult 0 v

/-- GETC from its KbdRead on (R89): "No echo". On stalled input the engine waits (R86). -/
def State.getcRead (s : State) : State :=
  match s.term.kbdRead with
  | (.byte b, t) => ({ s with term := t }).finishKey (zext16 b)
  | (.eof, t) => ({ s with term := t }).finishKey s.cfg.eofSentinel
  | (.stall, _) => { s with activity := .wait .getc }

/-- IN from its KbdRead on (R92): the byte is echoed; at end-of-input "nothing is echoed". -/
def State.inRead (s : State) : State :=
  match s.term.kbdRead with
  | (.byte b, t) => (({ s with term := t }).ttyWrite [b]).ttyFlush.finishKey (extendKey s.cfg.inExtend b)
  | (.eof, t) => ({ s with term := t }).ttyFlush.finishKey s.cfg.eofSentinel
  | (.stall, _) => { s with activity := .wait .inKey }

/-- The loop of PUTS (R91) and PUTSP (R93) from scan address `a`, at most `fuel` reads. The address wraps
modulo 2^16. If no zero word was read, the routine is still inside its loop (R96). -/
def State.scanFrom (k : StringKind) : Nat → Word → State → State
  | 0, a, s => { s with activity := .scan k a }
  | fuel + 1, a, s =>
    let r := s.stringRead a
    if r.1 = 0 then { r.2.ttyFlush with activity := .idle }
    else State.scanFrom k fuel (a + 1) (r.2.ttyWrite (stringBytes k r.1))

/-- How many reads of a scan one step takes: "a single step when the scan from R0 reaches a zero word
within 65,536 reads" (R96). -/
def scanReads : Nat := 65536

/-- OUT (R90). -/
def State.outRoutine (s : State) : State := (s.ttyWrite [lowByte (s.reg 0)]).ttyFlush

/-- PUTS and PUTSP from their start, `a <- R0` (R91, R93). -/
def State.stringRoutine (k : StringKind) (s : State) : State := s.scanFrom k scanReads (s.reg 0)

/-- IN: the prompt and its flush, then the read (R92). -/
def State.inRoutine (s : State) : State := (s.ttyWrite s.cfg.inPrompt).ttyFlush.inRead

/-- HALT: the notice, its flush, Halt() (R94). -/
def State.haltRoutine (s : State) : State := (s.ttyWrite s.cfg.haltNotice).ttyFlush.halt

/-- UNDEF(vec): abort, or skip, by UNDEF_TRAP_POLICY (R95). -/
def State.undefRoutine (s : State) : State :=
  match s.cfg.undefTrapPolicy with
  | .fatal => s.abort .undefinedTrap
  | .noop => s

/-- Go on with the routine the engine is inside of; an idle engine is inside of none. -/
def State.resume (s : State) : State :=
  match s.activity with
  | .idle => s
  | .scan k a => s.scanFrom k scanReads a
  | .wait .getc => s.getcRead
  | .wait .inKey => s.inRead

/-! ### The instructions -/

/-- TRAP (R88): R7, then the case on the vector. Decoding gives this constructor the undefined vectors
only; on a term with a defined vector the case is R88's all the same. -/
def execTrap (vect8 : Byte) (s : State) : Host.Outcome State Fault Refusal :=
  .next (if vect8 = 0x20 then s.link.getcRead
    else if vect8 = 0x21 then s.link.outRoutine
    else if vect8 = 0x22 then s.link.stringRoutine .puts
    else if vect8 = 0x23 then s.link.inRoutine
    else if vect8 = 0x24 then s.link.stringRoutine .putsp
    else if vect8 = 0x25 then s.link.haltRoutine
    else s.link.undefRoutine)

/-- GETC, vector x20 (R88, R89). -/
def execTrapGetc (s : State) : Host.Outcome State Fault Refusal := .next s.link.getcRead

/-- OUT, vector x21 (R88, R90). -/
def execTrapOut (s : State) : Host.Outcome State Fault Refusal := .next s.link.outRoutine

/-- PUTS, vector x22 (R88, R91). -/
def execTrapPuts (s : State) : Host.Outcome State Fault Refusal := .next (s.link.stringRoutine .puts)

/-- IN, vector x23 (R88, R92). -/
def execTrapIn (s : State) : Host.Outcome State Fault Refusal := .next s.link.inRoutine

/-- PUTSP, vector x24 (R88, R93). -/
def execTrapPutsp (s : State) : Host.Outcome State Fault Refusal := .next (s.link.stringRoutine .putsp)

/-- HALT, vector x25 (R88, R94). -/
def execTrapHalt (s : State) : Host.Outcome State Fault Refusal := .next s.link.haltRoutine

end Sys2Proof.Machine
end

