-- ==== Sys2Proof/Machine/Step.lean ====
section
/-! DEFINITION. One step of the Machine Loop (spec/30_encoding.md R63). -/

namespace Sys2Proof.Machine

/-- `Step()`: while RUNNING, fetch and execute one instruction; if the engine is still inside a trap
routine, go on with it (log 19, log 20). In HALTED and ABORTED the engine is idle "for good, with all
state kept and nothing to wake it" (spec/60_exceptions.md R114): the state stays as it is (log 17). -/
def step (s : State) : Host.Outcome State Fault Refusal :=
  match s.run, s.activity with
  | .running, .idle => exec s.fetch.current s.fetch
  | .running, _ => .next s.resume
  | _, _ => .next s

/-- `s` with the instruction word `w` where the next fetch reads, and the engine about to fetch (log 28).
A fetch from KBSR_ADDR polls first and so overwrites the word (R36). -/
def State.withFetchWord (s : State) (nbits w : Nat) : State :=
  { s with mem := s.mem.write s.pc (BitVec.ofNat 16 (w % 2 ^ nbits)), run := .running, activity := .idle }

end Sys2Proof.Machine
end

