-- ==== Sys2Proof/Machine/Image.lean ====
section
/-! DEFINITION. The host's `Load` (spec/20_memory.md R50 to R52): how a program comes into memory before
the run. -/

namespace Sys2Proof.Machine

/-- What Load answers to the host (spec/00_scope.md R10). -/
inductive LoadResult where
  | success
  | failure
  deriving DecidableEq, Repr

/-- Place the words of a stream from address `a` on: big-endian, "truncate at the top of memory", a last
odd byte ignored (R50, D22). -/
def Memory.place : List Byte → Nat → Memory → Memory
  | hi :: lo :: rest, a, m =>
    if a < 65536 then Memory.place rest (a + 1) (m.write (BitVec.ofNat 16 a) (wordOfBytes hi lo)) else m
  | _, _, m => m

/-- Load(stream): `none` is a stream that cannot be read. A failed load leaves memory unchanged; no load
sets PC (R50, R51). -/
def State.load (s : State) (stream : Option (List Byte)) : LoadResult × State :=
  match stream with
  | some (hi :: lo :: rest) => (.success, { s with mem := s.mem.place rest (wordOfBytes hi lo).toNat })
  | _ => (.failure, s)

/-- Several images, "one after another, in the order the host gives" (R51). -/
def State.loadAll (s : State) (streams : List (Option (List Byte))) : State :=
  streams.foldl (fun s stream => (s.load stream).2) s

end Sys2Proof.Machine
end

