-- ==== Sys2Proof/Safety.lean ====
section
/-! DEFINITION. The terms claims are stated in: the invariant of the machine, runs and their ends, what
an instruction writes, and what a state keeps of another. -/

namespace Sys2Proof.Machine

/-! ### Runs (spec/70_reset_and_hazards.md R116, R118) -/

/-- `t` is reached from `s` by exactly `n` steps, each with a next state. -/
inductive Steps : Nat → State → State → Prop where
  | zero (s : State) : Steps 0 s s
  | succ {n : Nat} {s t u : State} : step s = .next t → Steps n t u → Steps (n + 1) s u

/-- The engine has stopped: HALTED or ABORTED (R25). -/
def State.stopped (s : State) : Prop := s.run ≠ .running

/-- A normal end of a run (R118). -/
def State.normalEnd (s : State) : Prop := s.run = .halted

/-- A fatal end of a run (R118). -/
def State.fatalEnd (s : State) : Prop := ∃ cause info, s.run = .aborted cause info

/-! ### The invariant -/

/-- The engine is inside PUTS or PUTSP. -/
def Activity.scanning : Activity → Bool
  | .scan _ _ => true
  | .idle | .wait _ => false

/-- The TRAP of a string routine. -/
def StringKind.trap : StringKind → Instr
  | .puts => .trapPuts
  | .putsp => .trapPutsp

/-- The TRAP of a routine that reads a key. -/
def KeyKind.trap : KeyKind → Instr
  | .getc => .trapGetc
  | .inKey => .trapIn

/-- The TRAP that a scan or a wait is inside of. -/
def Activity.instr : Activity → Option Instr
  | .idle => none
  | .scan k _ => some k.trap
  | .wait k => some k.trap

/-- The instructions that raise an abort cause (spec/60_exceptions.md R101). -/
def AbortCause.raisedBy (c : AbortCause) (cfg : Config) (i : Instr) : Prop :=
  match c with
  | .illegalOpcodeRti => i = .rti
  | .illegalOpcodeRes => i = .res
  | .undefinedTrap => (∃ v, i = .trap v ∧ definedVector v = false) ∧ cfg.undefTrapPolicy = .fatal

/-- What holds between any two steps of a machine that was created and loaded as R116 says. -/
structure State.Inv (s : State) : Prop where
  /-- KBSR_ADDR and KBDR_ADDR differ (R8). -/
  addresses : s.cfg.wf
  /-- The memory is in its canonical form. -/
  memory : s.mem.wf
  /-- A stopped engine is inside no routine (R27). -/
  stoppedIdle : s.stopped → s.activity = .idle
  /-- No more is flushed than was written (R87). -/
  flushedLe : s.term.flushed ≤ s.term.output.length
  /-- Every routine flushes what it writes; only a scan that has not ended owes a flush (R90 to R94). -/
  flushedAll : s.activity.scanning = false → s.term.flushed = s.term.output.length
  /-- An unfinished routine belongs to the TRAP in IR, which has saved its link (R27, R88). -/
  inTrap : ∀ i, s.activity.instr = some i → s.current = i ∧ s.reg 7 = s.pc
  /-- HALTED was entered by the HALT trap in IR, which has saved its link (R25, R94). -/
  halted : s.run = .halted → s.current = .trapHalt ∧ s.reg 7 = s.pc
  /-- The abort record names the instruction in IR, the address it was fetched from, and a cause that
  this instruction raises (R100, R101). -/
  aborted : ∀ cause info, s.run = .aborted cause info →
    info.word = s.ir ∧ info.addr + 1 = s.pc ∧ cause.raisedBy s.cfg (decode info.word)

/-! ### The terminal input as a sequence (spec/10_state.md R28) -/

/-- Byte `i` of the unconsumed input, counted from 0, if the input has so many. -/
def Terminal.byteAt (t : Terminal) (i : Nat) : Option Byte :=
  match t.input[i]?, t.inputEnd with
  | some b, _ => some b
  | none, .endless next => some (Config.endlessByte (next + (i - t.input.length)))
  | none, .eof | none, .stall => none

/-- `u` has the input of `t` less its first `n` bytes, and the same end. -/
def Terminal.Consumed (n : Nat) (t u : Terminal) : Prop :=
  (∀ i, u.byteAt i = t.byteAt (i + n)) ∧ (u.inputEnd = .eof ↔ t.inputEnd = .eof) ∧
    (u.inputEnd = .stall ↔ t.inputEnd = .stall)

/-! ### What a state keeps of another -/

/-- Every register but those of `ds` holds what it held. -/
def KeepsRegs (ds : List RegIdx) (s t : State) : Prop := ∀ r, r ∉ ds → t.reg r = s.reg r

/-- Every word of memory reads as it read. -/
def KeepsMemory (s t : State) : Prop := ∀ a, t.mem.read a = s.mem.read a

/-- The parameters, IR, RUN and the activity are as they were. -/
def KeepsControl (s t : State) : Prop :=
  t.cfg = s.cfg ∧ t.ir = s.ir ∧ t.run = s.run ∧ t.activity = s.activity

/-- As `KeepsControl`, for a routine that ran to its end: the engine is inside no routine. -/
def CompletesRoutine (s t : State) : Prop :=
  t.cfg = s.cfg ∧ t.ir = s.ir ∧ t.run = s.run ∧ t.activity = .idle

/-- Only the result register `dr` and COND are written. -/
def WritesOnlyResult (dr : RegIdx) (s t : State) : Prop :=
  KeepsRegs [dr] s t ∧ t.pc = s.pc ∧ KeepsMemory s t ∧ t.term = s.term ∧ KeepsControl s t

/-- COND reports the sign of `v`: "ZERO iff value==0; NEGATIVE iff high bit set; POSITIVE otherwise"
(spec/10_state.md R21), said on the value as a number. -/
def Cond.Reports (c : Cond) (v : Word) : Prop :=
  (c = .z ↔ v.toNat = 0) ∧ (c = .n ↔ 32768 ≤ v.toNat) ∧ (c = .p ↔ 0 < v.toNat ∧ v.toNat < 32768)

/-- `w` is `x + d` modulo 2^16, said on numbers; `d` may be negative. -/
def IsSum (w x : Word) (d : Int) : Prop := (w.toNat : Int) = ((x.toNat : Int) + d) % 65536

end Sys2Proof.Machine

namespace Sys2Proof

/-! ### What an instruction writes (spec/10_state.md R16) -/

/-- The registers an instruction writes. -/
def Instr.writes : Instr → List RegIdx
  | .addReg dr _ _ | .addImm dr _ _ | .andReg dr _ _ | .andImm dr _ _ | .not dr _ => [dr]
  | .ld dr _ | .ldi dr _ | .ldr dr _ _ | .lea dr _ => [dr]
  | .jsr _ | .jsrr _ => [7]
  | .trapGetc | .trapIn => [7, 0]
  | .trap _ | .trapOut | .trapPuts | .trapPutsp | .trapHalt => [7]
  | .br _ _ | .jmp _ | .st _ _ | .sti _ _ | .str _ _ _ | .rti | .res => []

/-- The register whose new value an instruction reports in COND, if it updates COND. -/
def Instr.flagged : Instr → Option RegIdx
  | .addReg dr _ _ | .addImm dr _ _ | .andReg dr _ _ | .andImm dr _ _ | .not dr _ => some dr
  | .ld dr _ | .ldi dr _ | .ldr dr _ _ | .lea dr _ => some dr
  | .trapGetc | .trapIn => some 0
  | .jsr _ | .jsrr _ | .trap _ | .trapOut | .trapPuts | .trapPutsp | .trapHalt => none
  | .br _ _ | .jmp _ | .st _ _ | .sti _ _ | .str _ _ _ | .rti | .res => none

/-- The instructions that write R7 with the post-fetch PC (R16, R17). -/
def Instr.links : Instr → Bool
  | .jsr _ | .jsrr _ | .trap _ | .trapGetc | .trapOut | .trapPuts | .trapIn | .trapPutsp | .trapHalt => true
  | .addReg _ _ _ | .addImm _ _ _ | .andReg _ _ _ | .andImm _ _ _ | .not _ _ => false
  | .ld _ _ | .ldi _ _ | .ldr _ _ _ | .lea _ _ => false
  | .br _ _ | .jmp _ | .st _ _ | .sti _ _ | .str _ _ _ | .rti | .res => false

/-- The instructions that may write PC: "BR (when taken), JMP, JSR and JSRR write `PC`. No other
instruction does" (R18). -/
def Instr.transfersControl : Instr → Bool
  | .br _ _ | .jmp _ | .jsr _ | .jsrr _ => true
  | .addReg _ _ _ | .addImm _ _ _ | .andReg _ _ _ | .andImm _ _ _ | .not _ _ => false
  | .ld _ _ | .ldi _ _ | .ldr _ _ _ | .lea _ _ | .st _ _ | .sti _ _ | .str _ _ _ => false
  | .trap _ | .trapGetc | .trapOut | .trapPuts | .trapIn | .trapPutsp | .trapHalt | .rti | .res => false

end Sys2Proof

namespace Sys2Proof.Machine

/-- The address an instruction stores to, if it stores: the meaning's own effective address. -/
def State.storeAddress (s : State) : Instr → Option Word
  | .st _ off9 => some (s.eaPcRel off9)
  | .sti _ off9 => some (s.eaIndirect off9).1
  | .str _ baseR off6 => some (s.eaBase baseR off6)
  | .addReg _ _ _ | .addImm _ _ _ | .andReg _ _ _ | .andImm _ _ _ | .not _ _ => none
  | .br _ _ | .jmp _ | .jsr _ | .jsrr _ | .ld _ _ | .ldi _ _ | .ldr _ _ _ | .lea _ _ => none
  | .trap _ | .trapGetc | .trapOut | .trapPuts | .trapIn | .trapPutsp | .trapHalt | .rti | .res => none

/-! ### The string loop as a relation (spec/43_trap.md R91, R93) -/

/-- The loop of a string routine from scan address `a` in state `s` ends after exactly `n` reads in state
`u`, before the flush: a read of a zero word leaves the loop; any other word is written and the next
address is scanned. -/
inductive StringLoop (k : StringKind) : Nat → Word → State → State → Prop where
  | stop {a : Word} {s : State} : (s.stringRead a).1 = 0 → StringLoop k 1 a s (s.stringRead a).2
  | more {n : Nat} {a : Word} {s u : State} : (s.stringRead a).1 ≠ 0 →
      StringLoop k n (a + 1) ((s.stringRead a).2.ttyWrite (stringBytes k (s.stringRead a).1)) u →
      StringLoop k (n + 1) a s u

/-- The words of memory from `a` on, `n` of them, the address wrapping. -/
def Memory.words (m : Memory) : Nat → Word → List Word
  | 0, _ => []
  | n + 1, a => m.read a :: Memory.words m n (a + 1)

end Sys2Proof.Machine
end

