-- ==== Sys2Proof/Certificates/Slice0/Obligations.lean ====
section
/-! DEFINITION. The statements for the provers, from the numbered rules of spec/. A statement quantifies
over every state, and so over every value of the parameters of R8 and every draw of R34. Where a clause
rests on a decision of the spec's own (92_eei_decisions.md) or of the model's, its docstring says so. -/

open Sys2Proof Sys2Proof.Machine

/-! ### Encoding (30_encoding.md) -/

/-- A word of each family, written out from the spec's encodings, decodes to the instruction it stands
for (the worked examples of R68 to R98 and the words of R66). -/
def Obligations.SpecWordsDecodeAsNamed : Prop :=
  decode 0x1401 = .addReg 2 0 1 ∧ decode 0x1021 = .addImm 0 0 1 ∧ decode 0x5642 = .andReg 3 1 2 ∧
  decode 0x502F = .andImm 0 0 15 ∧ decode 0x997F = .not 4 5 ∧ decode 0x05FD = .br 0b010 0x1FD ∧
  decode 0xC1C0 = .jmp 7 ∧ decode 0x4803 = .jsr 3 ∧ decode 0x40C0 = .jsrr 3 ∧
  decode 0x2202 = .ld 1 2 ∧ decode 0xA405 = .ldi 2 5 ∧ decode 0x68BF = .ldr 4 2 0x3F ∧
  decode 0xE001 = .lea 0 1 ∧ decode 0x3001 = .st 0 1 ∧ decode 0xB3FE = .sti 1 0x1FE ∧
  decode 0x74C2 = .str 2 3 2 ∧ decode 0xF320 = .trapGetc ∧ decode 0xF025 = .trapHalt ∧
  decode 0xF0FF = .trap 0xFF ∧ decode 0x8FFF = .rti ∧ decode 0xDEAD = .res

/-- Every word decodes to a well-formed instruction whose row of the opcode table it matches: under the
row's mask it is the row's pattern (R59 to R61, opcode_table.json; the numbers are the LC-3's, D1, log
24). -/
def Obligations.EveryWordMatchesTheRowItDecodesTo : Prop :=
  ∀ w : Word, (decode w).wf = true ∧ w &&& (decode w).row.mask = (decode w).row.pattern

/-- Decoding the word of a well-formed instruction gives it back, every operand at every value. -/
def Obligations.DecodeOfEncodeIsIdentity : Prop :=
  ∀ i : Instr, i.wf = true → decode (encode i) = i

/-- Encoding what a word decodes to gives the word back on every bit the block reads; only ignored bits
may differ (R55, R62). -/
def Obligations.EncodeOfDecodeKeepsReadBits : Prop :=
  ∀ w : Word, encode (decode w) &&& (decode w).row.significant = w &&& (decode w).row.significant

/-- Two words that differ only in bits the block ignores decode to one instruction and execute the same
from every state (R62, the spec's decision D6, log 22). -/
def Obligations.IgnoredBitsExecuteTheSame : Prop :=
  ∀ w w' : Word, w &&& (decode w).row.significant = w' &&& (decode w).row.significant →
    decode w' = decode w ∧ ∀ s : State, exec (decode w') s = exec (decode w) s

/-! ### Extension and addresses (00_scope.md R12, 30_encoding.md R58, 42_load_store.md R78) -/

/-- `sext_16` copies bit n-1 of an n-bit field into bits 15..n and `zext_16` puts 0 there; both keep the
field's own bits (R12). -/
def Obligations.ExtensionSetsTheBitsAboveTheField : Prop :=
  ∀ n : Nat, 1 ≤ n → n < 16 → ∀ (f : BitVec n) (i : Nat), i < 16 →
    (sext16 f).getLsbD i = (if i < n then f.getLsbD i else f.getLsbD (n - 1)) ∧
    (zext16 f).getLsbD i = (if i < n then f.getLsbD i else false)

/-- The value ranges of the four sign-extended fields, truncation back to the field, and results of
0x8000 or more for a set sign bit (R58, which the spec derives from R12). -/
def Obligations.SignExtendedFieldsHaveTheirRanges : Prop :=
  (∀ f : BitVec 5, -16 ≤ (sext16 f).toInt ∧ (sext16 f).toInt ≤ 15) ∧
  (∀ f : BitVec 6, -32 ≤ (sext16 f).toInt ∧ (sext16 f).toInt ≤ 31) ∧
  (∀ f : BitVec 9, -256 ≤ (sext16 f).toInt ∧ (sext16 f).toInt ≤ 255) ∧
  (∀ f : BitVec 11, -1024 ≤ (sext16 f).toInt ∧ (sext16 f).toInt ≤ 1023) ∧
  ∀ n : Nat, 1 ≤ n → n < 16 → ∀ f : BitVec n,
    (sext16 f).toInt = f.toInt ∧ (sext16 f).setWidth n = f ∧
    (f.getLsbD (n - 1) = true → 0x8000 ≤ (sext16 f).toNat)

/-- The three addressing modes, as sums modulo 2^16 of a base and a signed offset; forming an address
writes no register (R78). -/
def Obligations.EffectiveAddressesAreSignedSums : Prop :=
  ∀ (s : State) (off9 : BitVec 9) (baseR : RegIdx) (off6 : BitVec 6),
    IsSum (s.eaPcRel off9) s.pc off9.toInt ∧
    IsSum (s.eaBase baseR off6) (s.reg baseR) off6.toInt ∧
    s.eaIndirect off9 = s.memRead (s.eaPcRel off9) ∧
    (∀ r, (s.eaIndirect off9).2.reg r = s.reg r)

/-! ### Reset (10_state.md R29, 00_scope.md R8) -/

/-- The state of a machine as it is created, for every value of the parameters and whatever the host's
terminal holds: the values of R29's table. That PC_START is 0x3000 by default is the spec's own decision D4
(log 4), and that the engine is inside no routine is said of the model's own field (logs 19 and 20). -/
def Obligations.CreatedMachineHoldsTheResetValues : Prop :=
  ∀ (cfg : Config) (input : List Byte) (e : InputEnd) (polls : List Bool),
    let s := State.resetWith cfg (Terminal.ofInput input e polls)
    (∀ a, s.mem.read a = 0) ∧ s.cond = .z ∧ s.pc = cfg.pcStart ∧ (cfg = Config.default → s.pc = 0x3000) ∧
    (∀ i : RegIdx, s.reg i = cfg.gprInit[i.toNat]'i.isLt) ∧ s.run = .running ∧ s.activity = .idle ∧
    s.cfg = cfg ∧ s.term.input = input ∧ s.term.inputEnd = e ∧ s.term.output = []

/-- The defaults of R8 for the parameters the spec decides (D3, D4, D7, D8, D11, D14; logs 3 to 6, 9,
10), and that `State.reset` is the machine created with them. Nothing is said of the three OPEN ones. -/
def Obligations.ResetUsesTheDefaultParameters : Prop :=
  State.reset.cfg = Config.default ∧
  Config.default.kbsrAddr = 0xFE00 ∧ Config.default.kbdrAddr = 0xFE02 ∧ Config.default.pcStart = 0x3000 ∧
  Config.default.undefTrapPolicy = .fatal ∧ Config.default.eofSentinel = 0xFFFF ∧
  Config.default.inExtend = .zero ∧ Config.default.stringReadPolls = false ∧
  State.reset.pc = 0x3000 ∧ State.reset.cond = .z ∧ State.reset.run = .running ∧
  (∀ a, State.reset.mem.read a = 0)

/-- The invariant holds of every machine as it is created, and of `State.reset`. -/
def Obligations.CreatedMachineHasTheInvariant : Prop :=
  State.reset.Inv ∧
  ∀ (cfg : Config) (input : List Byte) (e : InputEnd) (polls : List Bool), cfg.wf →
    (State.resetWith cfg (Terminal.ofInput input e polls)).Inv

/-! ### The step and the machine as a whole -/

/-- Every step keeps the invariant: canonical memory, flush accounting, a stopped engine inside no
routine, an unfinished routine inside its own TRAP with the link saved, HALTED only by the HALT trap, a
truthful abort record (R25, R26, R27, R87, R88, R100, R101). -/
def Obligations.StepKeepsTheInvariant : Prop :=
  ∀ s t : State, s.Inv → step s = .next t → t.Inv

/-- While RUNNING and between instructions, a step reads the word at PC by MemRead, puts it in IR, adds 1
to PC modulo 2^16, and executes what the word decodes to (R63); away from KBSR_ADDR the read is the
word of memory and changes nothing. That a fetch from KBSR_ADDR polls is the spec's decision D14. -/
def Obligations.StepExecutesTheFetchedInstruction : Prop :=
  ∀ s : State, s.run = .running → s.activity = .idle →
    step s = exec (decode (s.memRead s.pc).1)
      { (s.memRead s.pc).2 with ir := (s.memRead s.pc).1, pc := s.pc + 1 } ∧
    (s.pc + 1).toNat = (s.pc.toNat + 1) % 65536 ∧
    (s.pc ≠ s.cfg.kbsrAddr → s.memRead s.pc = (s.mem.read s.pc, s))

/-- No state stops the model: every step has a next state. That the stops of R99 are next states and no
faults is the model's choice (log 34, DEDUCED from "The block raises nothing else"), and that a step of a
stopped machine, of which R63 says nothing, answers that machine is the model's choice too (log 17). -/
def Obligations.EveryStepHasANextState : Prop :=
  ∀ s : State, ∃ t, step s = .next t

/-- The run state (R25, the spec's decision D17): HALTED and ABORTED are not left; HALTED is entered only
by executing TRAP x25; ABORTED only by executing RTI, RES or, under the policy fatal, an undefined
vector, and then the record holds the word, its address, and the cause that word raises. That a step of
a stopped machine answers that machine is the model's choice (log 17). -/
def Obligations.RunStateChangesOnlyByHaltAndAborts : Prop :=
  (∀ s : State, s.run ≠ .running → step s = .next s) ∧
  (∀ s t : State, s.run = .running → step s = .next t → t.run = .halted →
    s.activity = .idle ∧ decode (s.memRead s.pc).1 = .trapHalt) ∧
  (∀ (s t : State) (cause : AbortCause) (info : AbortInfo), s.run = .running → step s = .next t →
    t.run = .aborted cause info →
    s.activity = .idle ∧ info.word = (s.memRead s.pc).1 ∧ info.addr = s.pc ∧
      cause.raisedBy s.cfg (decode info.word))

/-- From a stopped state no run goes anywhere (R102, R114: idle "for good, with all state kept"; that a
step of a stopped machine leaves it as it is, is the model's choice, log 17). -/
def Obligations.StoppedMachineKeepsAllState : Prop :=
  ∀ (n : Nat) (s t : State), s.stopped → Steps n s t → t = s

/-- `raise Abort(cause, (IR, PC - 1))` (R100, R101, the spec's decision D17): RUN and the record are
written and nothing else, and every run from there stays there. -/
def Obligations.AbortRecordsTheInstructionAndStopsForGood : Prop :=
  AbortCause.illegalOpcodeRti.code = 1 ∧ AbortCause.illegalOpcodeRes.code = 2 ∧ AbortCause.undefinedTrap.code = 3 ∧
  ∀ (s : State) (cause : AbortCause),
    let t := s.abort cause
    t.run = .aborted cause { word := s.ir, addr := s.pc - 1 } ∧
    (KeepsRegs [] s t ∧ t.pc = s.pc ∧ t.cond = s.cond ∧ t.ir = s.ir ∧ t.cfg = s.cfg ∧ t.activity = s.activity ∧
      KeepsMemory s t ∧ t.term = s.term) ∧
    ∀ (n : Nat) (u : State), Steps n t u → u = t

/-- PC is written by BR, JMP, JSR and JSRR and by no other instruction (R18): every other instruction, and
every step inside an unfinished routine, leaves the post-fetch PC. -/
def Obligations.OnlyControlTransfersWritePc : Prop :=
  (∀ (i : Instr) (s t : State), i.transfersControl = false → exec i s = .next t → t.pc = s.pc) ∧
  (∀ s t : State, s.run = .running → s.activity ≠ .idle → step s = .next t → t.pc = s.pc)

/-- Which instruction writes which register and whether it updates the flags, row by row of R16's table;
the link is the post-fetch PC. GETC and IN update the flags when they complete. -/
def Obligations.RegistersAndFlagsAreWrittenAsTabled : Prop :=
  ∀ (i : Instr) (s t : State), i.wf = true → exec i s = .next t →
    KeepsRegs i.writes s t ∧
    (i.links = true → t.reg 7 = s.pc) ∧
    (i.flagged = none → t.cond = s.cond) ∧
    (∀ r, i.flagged = some r → t.activity = .idle → t.cond.Reports (t.reg r))

/-- BR is the only instruction that reads COND (R22): another instruction, started with another COND, ends
in the same state but for COND. -/
def Obligations.CondIsReadByBrOnly : Prop :=
  ∀ (i : Instr) (s t : State) (c : Cond), (∀ nzp off9, i ≠ .br nzp off9) → exec i s = .next t →
    ∃ c' : Cond, exec i { s with cond := c } = .next { t with cond := c' }

/-- Memory changes only where a store writes and at the two keyboard words, which a poll may write: every
other word reads as before, after every instruction (R33, R35, R42). -/
def Obligations.MemoryChangesOnlyByStoresAndPolls : Prop :=
  ∀ (i : Instr) (s t : State) (a : Word), exec i s = .next t →
    a ≠ s.cfg.kbsrAddr → a ≠ s.cfg.kbdrAddr → s.storeAddress i ≠ some a → t.mem.read a = s.mem.read a

/-- A step consumes input from its front only, appends to the output only, and changes neither how the input
ends nor a parameter (R8, R28). -/
def Obligations.StepConsumesInputAndAppendsOutput : Prop :=
  ∀ s t : State, step s = .next t →
    (∃ n, s.term.Consumed n t.term) ∧ (∃ new, t.term.output = s.term.output ++ new) ∧ t.cfg = s.cfg

/-! ### Memory and the keyboard words (20_memory.md) -/

/-- MemWrite writes one word, at every address KBSR_ADDR and KBDR_ADDR included, and has no side effect
(R35); MemReadPlain then reads it (R31). -/
def Obligations.WriteThenPlainReadGivesTheWord : Prop :=
  ∀ (s : State) (a v : Word),
    let t := s.memWrite a v
    (∀ b, t.memReadPlain b = if b = a then v else s.memReadPlain b) ∧
    KeepsRegs [] s t ∧ t.pc = s.pc ∧ t.cond = s.cond ∧ t.term = s.term ∧ KeepsControl s t

/-- MemRead polls at KBSR_ADDR only, and then returns the possibly just-updated word (R32). -/
def Obligations.MemReadPollsOnlyAtTheStatusAddress : Prop :=
  ∀ (s : State) (a : Word),
    (a ≠ s.cfg.kbsrAddr → s.memRead a = (s.memReadPlain a, s)) ∧
    (a = s.cfg.kbsrAddr → s.memRead a = (s.poll.memReadPlain a, s.poll))

/-- What a poll leaves (R33, the spec's decision D12, log 15): with a key, KBSR 0x8000 and KBDR the key;
without, KBSR 0 and KBDR as before; nothing else changes but the terminal, and a read of KBSR_ADDR
gives the new status. -/
def Obligations.PollUpdatesTheKeyboardWords : Prop :=
  ∀ s : State, s.cfg.wf →
    let t := (s.memRead s.cfg.kbsrAddr).2
    (KeepsRegs [] s t ∧ t.pc = s.pc ∧ t.cond = s.cond ∧ KeepsControl s t ∧ t.term = s.term.kbdPoll.2 ∧
      ∀ a, a ≠ s.cfg.kbsrAddr → a ≠ s.cfg.kbdrAddr → t.mem.read a = s.mem.read a) ∧
    (∀ b, s.term.kbdPoll.1 = some b → (s.memRead s.cfg.kbsrAddr).1 = 0x8000 ∧
      t.mem.read s.cfg.kbsrAddr = 0x8000 ∧ (t.mem.read s.cfg.kbdrAddr).toNat = b.toNat) ∧
    (s.term.kbdPoll.1 = none → (s.memRead s.cfg.kbsrAddr).1 = 0 ∧
      t.mem.read s.cfg.kbsrAddr = 0 ∧ t.mem.read s.cfg.kbdrAddr = s.mem.read s.cfg.kbdrAddr)

/-- The answers of KbdPoll are those R34 allows (the spec's decision D13; the draws are the model's own
fields, log 14): a byte only when it is the next of the input, which it consumes; none at the end; and
with input left both answers are drawn by some value of the draws. Polling writes no output. -/
def Obligations.PollAnswersAreTheAllowedDraws : Prop :=
  ∀ t : Terminal,
    (∀ b, t.kbdPoll.1 = some b → t.byteAt 0 = some b ∧ t.Consumed 1 t.kbdPoll.2) ∧
    (t.kbdPoll.1 = none → t.Consumed 0 t.kbdPoll.2) ∧
    (t.byteAt 0 = none → t.kbdPoll.1 = none) ∧
    (∀ b, t.byteAt 0 = some b → ({ t with polls := true :: t.polls } : Terminal).kbdPoll.1 = some b) ∧
    ({ t with polls := false :: t.polls } : Terminal).kbdPoll.1 = none ∧
    t.kbdPoll.2.output = t.output ∧ t.kbdPoll.2.flushed = t.flushed

/-- Reading the status address twice with no new key gives 0 both times and leaves the data word (R39,
which the spec derives from R32 and R33). -/
def Obligations.RepeatedStatusReadsWithoutAKeyGiveZero : Prop :=
  ∀ s : State, s.cfg.wf →
    let first := s.memRead s.cfg.kbsrAddr
    let second := first.2.memRead s.cfg.kbsrAddr
    s.term.kbdPoll.1 = none → first.2.term.kbdPoll.1 = none →
      first.1 = 0 ∧ second.1 = 0 ∧ second.2.mem.read s.cfg.kbdrAddr = s.mem.read s.cfg.kbdrAddr

/-- A stored word is what a later fetch from its address reads, and the store leaves IR, the instruction
now executing, as it is (R48, which the spec derives; a fetch from KBSR_ADDR polls instead). -/
def Obligations.StoredWordIsFetched : Prop :=
  ∀ s t : State,
    (∀ sr off9, exec (.st sr off9) s = .next t → s.eaPcRel off9 ≠ s.cfg.kbsrAddr →
      t.ir = s.ir ∧ ({ t with pc := s.eaPcRel off9 } : State).fetch.ir = s.reg sr) ∧
    (∀ sr off9, exec (.sti sr off9) s = .next t → (s.eaIndirect off9).1 ≠ s.cfg.kbsrAddr →
      t.ir = s.ir ∧ ({ t with pc := (s.eaIndirect off9).1 } : State).fetch.ir = s.reg sr) ∧
    (∀ sr baseR off6, exec (.str sr baseR off6) s = .next t → s.eaBase baseR off6 ≠ s.cfg.kbsrAddr →
      t.ir = s.ir ∧ ({ t with pc := s.eaBase baseR off6 } : State).fetch.ir = s.reg sr)

/-! ### Operate (40_operate.md); the matches and masks are the rules' own (numbers: D1, log 24) -/

/-- ADD, both forms: the sum modulo 2^16 in DR, COND from it, everything else unchanged (R68, R69). -/
def Obligations.AddWritesTheSumAndFlags : Prop :=
  (∀ w : Word, w &&& 0xF020 = 0x1000 →
    decode w = .addReg (w.extractLsb' 9 3) (w.extractLsb' 6 3) (w.extractLsb' 0 3)) ∧
  (∀ w : Word, w &&& 0xF020 = 0x1020 →
    decode w = .addImm (w.extractLsb' 9 3) (w.extractLsb' 6 3) (w.extractLsb' 0 5)) ∧
  (∀ (s : State) (dr sr1 sr2 : RegIdx), ∃ t, exec (.addReg dr sr1 sr2) s = .next t ∧
    (t.reg dr).toNat = ((s.reg sr1).toNat + (s.reg sr2).toNat) % 65536 ∧
    t.cond.Reports (t.reg dr) ∧ WritesOnlyResult dr s t) ∧
  (∀ (s : State) (dr sr1 : RegIdx) (imm5 : BitVec 5), ∃ t, exec (.addImm dr sr1 imm5) s = .next t ∧
    IsSum (t.reg dr) (s.reg sr1) imm5.toInt ∧
    t.cond.Reports (t.reg dr) ∧ WritesOnlyResult dr s t)

/-- AND, both forms: the bitwise AND in DR, with imm5's sign bit standing for all higher bits, COND from
it, everything else unchanged (R70, R71). -/
def Obligations.AndWritesTheBitwiseAndAndFlags : Prop :=
  (∀ w : Word, w &&& 0xF020 = 0x5000 →
    decode w = .andReg (w.extractLsb' 9 3) (w.extractLsb' 6 3) (w.extractLsb' 0 3)) ∧
  (∀ w : Word, w &&& 0xF020 = 0x5020 →
    decode w = .andImm (w.extractLsb' 9 3) (w.extractLsb' 6 3) (w.extractLsb' 0 5)) ∧
  (∀ (s : State) (dr sr1 sr2 : RegIdx), ∃ t, exec (.andReg dr sr1 sr2) s = .next t ∧
    (∀ i, i < 16 → (t.reg dr).getLsbD i = ((s.reg sr1).getLsbD i && (s.reg sr2).getLsbD i)) ∧
    t.cond.Reports (t.reg dr) ∧ WritesOnlyResult dr s t) ∧
  (∀ (s : State) (dr sr1 : RegIdx) (imm5 : BitVec 5), ∃ t, exec (.andImm dr sr1 imm5) s = .next t ∧
    (∀ i, i < 16 → (t.reg dr).getLsbD i = ((s.reg sr1).getLsbD i && imm5.getLsbD (min i 4))) ∧
    t.cond.Reports (t.reg dr) ∧ WritesOnlyResult dr s t)

/-- NOT: every bit of SR inverted in DR, COND from it, everything else unchanged; bits 5:0 are not looked
at (R72). -/
def Obligations.NotWritesTheComplementAndFlags : Prop :=
  (∀ w : Word, w &&& 0xF000 = 0x9000 → decode w = .not (w.extractLsb' 9 3) (w.extractLsb' 6 3)) ∧
  (∀ (s : State) (dr sr : RegIdx), ∃ t, exec (.not dr sr) s = .next t ∧
    (t.reg dr).toNat = 65535 - (s.reg sr).toNat ∧
    t.cond.Reports (t.reg dr) ∧ WritesOnlyResult dr s t)

/-! ### Control transfer (41_control.md) -/

/-- BR: taken exactly when the mask bit of the current flag is set, then PC plus the signed offset modulo
2^16; PC alone changes. Mask 000 never branches, mask 111 always (R74). That n, z, p are mask bits 2, 1,
0 for N, Z, P is the spec's decision D2 (log 25). -/
def Obligations.BrBranchesOnTheCurrentFlag : Prop :=
  (∀ w : Word, w &&& 0xF000 = 0x0000 → decode w = .br (w.extractLsb' 9 3) (w.extractLsb' 0 9)) ∧
  (∀ (s : State) (nzp : BitVec 3) (off9 : BitVec 9), ∃ t, exec (.br nzp off9) s = .next t ∧
    (let taken := (s.cond = .n ∧ nzp.getLsbD 2 = true) ∨ (s.cond = .z ∧ nzp.getLsbD 1 = true) ∨
        (s.cond = .p ∧ nzp.getLsbD 0 = true);
      (taken → IsSum t.pc s.pc off9.toInt) ∧ (¬ taken → t.pc = s.pc) ∧
      (nzp = 0 → ¬ taken) ∧ (nzp = 7 → taken)) ∧
    KeepsRegs [] s t ∧ t.cond = s.cond ∧ KeepsMemory s t ∧ t.term = s.term ∧ KeepsControl s t)

/-- JMP: PC takes the base register's value; PC alone changes; RET is `JMP R7` (R75). -/
def Obligations.JmpGoesToTheBaseRegister : Prop :=
  (∀ w : Word, w &&& 0xF000 = 0xC000 → decode w = .jmp (w.extractLsb' 6 3)) ∧ decode 0xC1C0 = .jmp 7 ∧
  (∀ (s : State) (baseR : RegIdx), ∃ t, exec (.jmp baseR) s = .next t ∧
    t.pc = s.reg baseR ∧
    KeepsRegs [] s t ∧ t.cond = s.cond ∧ KeepsMemory s t ∧ t.term = s.term ∧ KeepsControl s t)

/-- JSR: R7 takes the post-fetch PC, PC that plus the signed offset modulo 2^16; COND and all else are
unchanged (R76). -/
def Obligations.JsrLinksAndGoesRelative : Prop :=
  (∀ w : Word, w &&& 0xF800 = 0x4800 → decode w = .jsr (w.extractLsb' 0 11)) ∧
  (∀ (s : State) (off11 : BitVec 11), ∃ t, exec (.jsr off11) s = .next t ∧
    t.reg 7 = s.pc ∧ IsSum t.pc s.pc off11.toInt ∧
    KeepsRegs [7] s t ∧ t.cond = s.cond ∧ KeepsMemory s t ∧ t.term = s.term ∧ KeepsControl s t)

/-- JSRR: R7 takes the post-fetch PC, PC the base register's value read after that write, so `JSRR R7` falls
through (R77, the spec's decision D16, log 21). -/
def Obligations.JsrrLinksThenReadsTheBase : Prop :=
  (∀ w : Word, w &&& 0xF800 = 0x4000 → decode w = .jsrr (w.extractLsb' 6 3)) ∧
  (∀ (s : State) (baseR : RegIdx), ∃ t, exec (.jsrr baseR) s = .next t ∧
    t.reg 7 = s.pc ∧ (baseR ≠ 7 → t.pc = s.reg baseR) ∧ (baseR = 7 → t.pc = s.pc) ∧
    KeepsRegs [7] s t ∧ t.cond = s.cond ∧ KeepsMemory s t ∧ t.term = s.term ∧ KeepsControl s t)

/-! ### Loads, stores and LEA (42_load_store.md) -/

/-- LD: DR takes what MemRead gives at PC plus the signed offset, COND from it; memory and the terminal
are as that read leaves them, which away from KBSR_ADDR is as they were (R79). -/
def Obligations.LdLoadsPcRelative : Prop :=
  (∀ w : Word, w &&& 0xF000 = 0x2000 → decode w = .ld (w.extractLsb' 9 3) (w.extractLsb' 0 9)) ∧
  (∀ (s : State) (dr : RegIdx) (off9 : BitVec 9) (ea : Word), IsSum ea s.pc off9.toInt →
    ∃ t, exec (.ld dr off9) s = .next t ∧
    t.reg dr = (s.memRead ea).1 ∧ t.cond.Reports (t.reg dr) ∧
    KeepsRegs [dr] s t ∧ t.pc = s.pc ∧ KeepsControl s t ∧
    KeepsMemory (s.memRead ea).2 t ∧ t.term = (s.memRead ea).2.term ∧
    (ea ≠ s.cfg.kbsrAddr → t.reg dr = s.mem.read ea ∧ KeepsMemory s t ∧ t.term = s.term))

/-- LDI: two MemReads, the pointer's first, the datum's from the state the first leaves; DR takes the
datum, COND from it (R80). -/
def Obligations.LdiLoadsThroughThePointer : Prop :=
  (∀ w : Word, w &&& 0xF000 = 0xA000 → decode w = .ldi (w.extractLsb' 9 3) (w.extractLsb' 0 9)) ∧
  (∀ (s : State) (dr : RegIdx) (off9 : BitVec 9) (pa : Word), IsSum pa s.pc off9.toInt →
    let p := s.memRead pa
    let v := p.2.memRead p.1
    ∃ t, exec (.ldi dr off9) s = .next t ∧
    t.reg dr = v.1 ∧ t.cond.Reports (t.reg dr) ∧
    KeepsRegs [dr] s t ∧ t.pc = s.pc ∧ KeepsControl s t ∧
    KeepsMemory v.2 t ∧ t.term = v.2.term ∧
    (pa ≠ s.cfg.kbsrAddr → s.mem.read pa ≠ s.cfg.kbsrAddr →
      t.reg dr = s.mem.read (s.mem.read pa) ∧ KeepsMemory s t ∧ t.term = s.term))

/-- LDR: DR takes what MemRead gives at the base register plus the signed offset, COND from it; DR may be
the base register (R81). -/
def Obligations.LdrLoadsBaseRelative : Prop :=
  (∀ w : Word, w &&& 0xF000 = 0x6000 →
    decode w = .ldr (w.extractLsb' 9 3) (w.extractLsb' 6 3) (w.extractLsb' 0 6)) ∧
  (∀ (s : State) (dr baseR : RegIdx) (off6 : BitVec 6) (ea : Word), IsSum ea (s.reg baseR) off6.toInt →
    ∃ t, exec (.ldr dr baseR off6) s = .next t ∧
    t.reg dr = (s.memRead ea).1 ∧ t.cond.Reports (t.reg dr) ∧
    KeepsRegs [dr] s t ∧ t.pc = s.pc ∧ KeepsControl s t ∧
    KeepsMemory (s.memRead ea).2 t ∧ t.term = (s.memRead ea).2.term ∧
    (ea ≠ s.cfg.kbsrAddr → t.reg dr = s.mem.read ea ∧ KeepsMemory s t ∧ t.term = s.term))

/-- LEA: DR takes the address itself and COND reports it; memory is not read, so nothing polls (R82). -/
def Obligations.LeaWritesTheAddressAndFlags : Prop :=
  (∀ w : Word, w &&& 0xF000 = 0xE000 → decode w = .lea (w.extractLsb' 9 3) (w.extractLsb' 0 9)) ∧
  (∀ (s : State) (dr : RegIdx) (off9 : BitVec 9), ∃ t, exec (.lea dr off9) s = .next t ∧
    IsSum (t.reg dr) s.pc off9.toInt ∧ t.cond.Reports (t.reg dr) ∧ WritesOnlyResult dr s t)

/-- ST: the word at PC plus the signed offset becomes SR's value, a plain write; every other word, the
registers, COND and the terminal are unchanged (R83). -/
def Obligations.StStoresPcRelative : Prop :=
  (∀ w : Word, w &&& 0xF000 = 0x3000 → decode w = .st (w.extractLsb' 9 3) (w.extractLsb' 0 9)) ∧
  (∀ (s : State) (sr : RegIdx) (off9 : BitVec 9), ∃ t, exec (.st sr off9) s = .next t ∧
    IsSum (s.eaPcRel off9) s.pc off9.toInt ∧ t.mem.read (s.eaPcRel off9) = s.reg sr ∧
    (∀ a, a ≠ s.eaPcRel off9 → t.mem.read a = s.mem.read a) ∧
    KeepsRegs [] s t ∧ t.pc = s.pc ∧ t.cond = s.cond ∧ t.term = s.term ∧ KeepsControl s t)

/-- STI: the pointer is read by MemRead at PC plus the signed offset; the word it points to becomes SR's
value, a plain write; every other word is as the pointer read left it, which away from KBSR_ADDR is as
it was (R84). -/
def Obligations.StiStoresThroughThePointer : Prop :=
  (∀ w : Word, w &&& 0xF000 = 0xB000 → decode w = .sti (w.extractLsb' 9 3) (w.extractLsb' 0 9)) ∧
  (∀ (s : State) (sr : RegIdx) (off9 : BitVec 9) (pa : Word), IsSum pa s.pc off9.toInt →
    let p := s.memRead pa
    ∃ t, exec (.sti sr off9) s = .next t ∧
    t.mem.read p.1 = s.reg sr ∧ (∀ a, a ≠ p.1 → t.mem.read a = p.2.mem.read a) ∧
    KeepsRegs [] s t ∧ t.pc = s.pc ∧ t.cond = s.cond ∧ t.term = p.2.term ∧ KeepsControl s t ∧
    (pa ≠ s.cfg.kbsrAddr → p.1 = s.mem.read pa ∧ t.term = s.term ∧
      ∀ a, a ≠ s.mem.read pa → t.mem.read a = s.mem.read a))

/-- STR: the word at the base register plus the signed offset becomes SR's value, a plain write; every
other word, the registers, COND and the terminal are unchanged (R85). -/
def Obligations.StrStoresBaseRelative : Prop :=
  (∀ w : Word, w &&& 0xF000 = 0x7000 →
    decode w = .str (w.extractLsb' 9 3) (w.extractLsb' 6 3) (w.extractLsb' 0 6)) ∧
  (∀ (s : State) (sr baseR : RegIdx) (off6 : BitVec 6), ∃ t, exec (.str sr baseR off6) s = .next t ∧
    IsSum (s.eaBase baseR off6) (s.reg baseR) off6.toInt ∧ t.mem.read (s.eaBase baseR off6) = s.reg sr ∧
    (∀ a, a ≠ s.eaBase baseR off6 → t.mem.read a = s.mem.read a) ∧
    KeepsRegs [] s t ∧ t.pc = s.pc ∧ t.cond = s.cond ∧ t.term = s.term ∧ KeepsControl s t)

/-! ### TRAP (43_trap.md) -/

/-- TRAP: bits 7:0 select the routine, bits 11:8 are not looked at; every vector writes R7 with the
post-fetch PC and leaves PC; only GETC and IN write another register and COND, on R0 (R88). -/
def Obligations.TrapLinksAndDispatchesOnTheVector : Prop :=
  ∀ w : Word, w &&& 0xF000 = 0xF000 →
    let v : Byte := w.extractLsb' 0 8
    (v = 0x20 → decode w = .trapGetc) ∧ (v = 0x21 → decode w = .trapOut) ∧ (v = 0x22 → decode w = .trapPuts) ∧
    (v = 0x23 → decode w = .trapIn) ∧ (v = 0x24 → decode w = .trapPutsp) ∧ (v = 0x25 → decode w = .trapHalt) ∧
    (v.toNat < 0x20 ∨ 0x25 < v.toNat → decode w = .trap v) ∧
    ∀ s : State, ∃ t, exec (decode w) s = .next t ∧ t.reg 7 = s.pc ∧ t.pc = s.pc ∧
      (v = 0x20 ∨ v = 0x23 → KeepsRegs [7, 0] s t ∧ (t.activity = .idle → t.cond.Reports (t.reg 0))) ∧
      (v ≠ 0x20 ∧ v ≠ 0x23 → KeepsRegs [7] s t ∧ t.cond = s.cond)

/-- GETC: with a byte in the input, R0 takes it zero-extended and it is consumed; at end-of-input R0 takes
EOF_SENTINEL; COND from R0; nothing is written to the terminal. On stalled input the engine waits and
only the link is written (R88, R89, R86). -/
def Obligations.GetcReadsOneKey : Prop :=
  (∀ w : Word, w &&& 0xF0FF = 0xF020 → decode w = .trapGetc) ∧
  (∀ (s : State) (b : Byte), s.term.nextKey = some b →
    ∃ t, exec .trapGetc s = .next t ∧ (t.reg 0).toNat = b.toNat ∧ t.cond.Reports (t.reg 0) ∧
      t.reg 7 = s.pc ∧ KeepsRegs [7, 0] s t ∧ t.pc = s.pc ∧ KeepsMemory s t ∧
      t.term = s.term.dropKey ∧ CompletesRoutine s t) ∧
  (∀ s : State, s.term.input = [] → s.term.inputEnd = .eof →
    ∃ t, exec .trapGetc s = .next t ∧ t.reg 0 = s.cfg.eofSentinel ∧ t.cond.Reports (t.reg 0) ∧
      t.reg 7 = s.pc ∧ KeepsRegs [7, 0] s t ∧ t.pc = s.pc ∧ KeepsMemory s t ∧
      t.term = s.term ∧ CompletesRoutine s t) ∧
  (∀ s : State, s.term.input = [] → s.term.inputEnd = .stall →
    ∃ t, exec .trapGetc s = .next t ∧ t.activity = .wait .getc ∧ t.reg 7 = s.pc ∧ KeepsRegs [7] s t ∧
      t.pc = s.pc ∧ t.cond = s.cond ∧ KeepsMemory s t ∧ t.term = s.term ∧
      t.run = s.run ∧ t.ir = s.ir ∧ t.cfg = s.cfg)

/-- OUT: the low byte of R0 is written and flushed; R7 is the only register written and COND is unchanged
(R88, R90). -/
def Obligations.OutWritesTheLowByte : Prop :=
  (∀ w : Word, w &&& 0xF0FF = 0xF021 → decode w = .trapOut) ∧
  (∀ s : State, ∃ t, exec .trapOut s = .next t ∧
    t.term = { s.term with output := s.term.output ++ [BitVec.ofNat 8 ((s.reg 0).toNat % 256)]
                           flushed := s.term.output.length + 1 } ∧
    t.reg 7 = s.pc ∧ KeepsRegs [7] s t ∧ t.pc = s.pc ∧ t.cond = s.cond ∧ KeepsMemory s t ∧ KeepsControl s t)

/-- PUTS and PUTSP run the loop of R91 and R93: whenever that loop, from R0 in the state after the link,
ends within 65,536 reads, the routine completes with the loop's memory, input and output, all of it
flushed; R7 is the only register written and COND is unchanged. Holds for both values of
STRING_READ_POLLS. -/
def Obligations.StringRoutinesRunTheirLoop : Prop :=
  (∀ w : Word, w &&& 0xF0FF = 0xF022 → decode w = .trapPuts) ∧
  (∀ w : Word, w &&& 0xF0FF = 0xF024 → decode w = .trapPutsp) ∧
  (∀ (s u : State) (k : StringKind) (n : Nat), n ≤ 65536 → StringLoop k n (s.reg 0) s.link u →
    ∃ t, exec k.trap s = .next t ∧
      t.term = { u.term with flushed := u.term.output.length } ∧ KeepsMemory u t ∧
      t.reg 7 = s.pc ∧ KeepsRegs [7] s t ∧ t.pc = s.pc ∧ t.cond = s.cond ∧ CompletesRoutine s t)

/-- With STRING_READ_POLLS false, PUTS writes the low byte of each of the non-zero words that stand from
R0 on up to the first zero word, and PUTSP the low byte and then, if it is not zero, the high byte;
nothing else changes but R7 and the flush (R91, R93). The address wraps modulo 2^16 (D15, log 31). -/
def Obligations.ZeroTerminatedStringIsWritten : Prop :=
  ∀ (s : State) (n : Nat), s.cfg.stringReadPolls = false → n < 65536 →
    (∀ w ∈ s.mem.words n (s.reg 0), w ≠ 0) → s.mem.read (s.reg 0 + BitVec.ofNat 16 n) = 0 →
    let low : Word → Byte := fun w => w.extractLsb' 0 8
    let high : Word → Byte := fun w => w.extractLsb' 8 8
    (∃ t, exec .trapPuts s = .next t ∧
      t.term.output = s.term.output ++ (s.mem.words n (s.reg 0)).map low ∧
      t.term = { s.term with output := t.term.output, flushed := t.term.output.length } ∧
      t.reg 7 = s.pc ∧ KeepsRegs [7] s t ∧ t.pc = s.pc ∧ t.cond = s.cond ∧ KeepsMemory s t ∧ CompletesRoutine s t) ∧
    (∃ t, exec .trapPutsp s = .next t ∧
      t.term.output = s.term.output ++
        (s.mem.words n (s.reg 0)).flatMap (fun w => if high w = 0 then [low w] else [low w, high w]) ∧
      t.term = { s.term with output := t.term.output, flushed := t.term.output.length } ∧
      t.reg 7 = s.pc ∧ KeepsRegs [7] s t ∧ t.pc = s.pc ∧ t.cond = s.cond ∧ KeepsMemory s t ∧ CompletesRoutine s t)

/-- With STRING_READ_POLLS false and no zero word in memory, PUTS and PUTSP never complete: after any
number of further steps the engine is RUNNING inside the routine, and each step has written at least
65,536 bytes more (R96, the spec's decision D24; how many reads one step takes is the model's choice,
log 19). -/
def Obligations.ScanWithoutAZeroWordNeverEnds : Prop :=
  ∀ (s t : State) (k : StringKind),
    s.cfg.stringReadPolls = false → (∀ a, s.mem.read a ≠ 0) → s.run = .running → exec k.trap s = .next t →
    ∀ n : Nat, ∃ u, Steps n t u ∧ u.run = .running ∧ (∃ a, u.activity = .scan k a) ∧
      s.term.output.length + 65536 * (n + 1) ≤ u.term.output.length

/-- A scan that one step did not finish goes on: whenever the loop of R91 and R93, from the scan address the
engine holds, ends within 65,536 reads, the next step completes the routine with the loop's memory, input
and output, all of it flushed; no register and no flag is written. That a longer scan is cut into steps of
65,536 reads is the model's choice (log 19). -/
def Obligations.UnfinishedScanGoesOn : Prop :=
  ∀ (s u : State) (k : StringKind) (a : Word) (n : Nat), s.run = .running → s.activity = .scan k a → n ≤ 65536 →
    StringLoop k n a s u →
    ∃ t, step s = .next t ∧
      t.term = { u.term with flushed := u.term.output.length } ∧ KeepsMemory u t ∧
      KeepsRegs [] s t ∧ t.pc = s.pc ∧ t.cond = s.cond ∧ CompletesRoutine s t

/-- IN: the prompt, then a byte of the input, echoed, in R0 widened by IN_EXTEND; at end-of-input no echo
and EOF_SENTINEL in R0; COND from R0; all flushed. On stalled input the prompt is out and flushed, and
the engine waits (R88, R92, R86). -/
def Obligations.InPromptsAndReadsOneKey : Prop :=
  (∀ w : Word, w &&& 0xF0FF = 0xF023 → decode w = .trapIn) ∧
  (∀ (s : State) (b : Byte), s.term.nextKey = some b →
    ∃ t, exec .trapIn s = .next t ∧
      (s.cfg.inExtend = .zero → (t.reg 0).toNat = b.toNat) ∧
      (s.cfg.inExtend = .sign → (t.reg 0).toInt = b.toInt) ∧ t.cond.Reports (t.reg 0) ∧
      t.term = { s.term.dropKey with output := s.term.output ++ s.cfg.inPrompt ++ [b]
                                     flushed := s.term.output.length + s.cfg.inPrompt.length + 1 } ∧
      t.reg 7 = s.pc ∧ KeepsRegs [7, 0] s t ∧ t.pc = s.pc ∧ KeepsMemory s t ∧ CompletesRoutine s t) ∧
  (∀ s : State, s.term.input = [] → s.term.inputEnd = .eof →
    ∃ t, exec .trapIn s = .next t ∧ t.reg 0 = s.cfg.eofSentinel ∧ t.cond.Reports (t.reg 0) ∧
      t.term = { s.term with output := s.term.output ++ s.cfg.inPrompt
                             flushed := s.term.output.length + s.cfg.inPrompt.length } ∧
      t.reg 7 = s.pc ∧ KeepsRegs [7, 0] s t ∧ t.pc = s.pc ∧ KeepsMemory s t ∧ CompletesRoutine s t) ∧
  (∀ s : State, s.term.input = [] → s.term.inputEnd = .stall →
    ∃ t, exec .trapIn s = .next t ∧ t.activity = .wait .inKey ∧
      t.term = { s.term with output := s.term.output ++ s.cfg.inPrompt
                             flushed := s.term.output.length + s.cfg.inPrompt.length } ∧
      t.reg 7 = s.pc ∧ KeepsRegs [7] s t ∧ t.pc = s.pc ∧ t.cond = s.cond ∧ KeepsMemory s t ∧
      t.run = s.run ∧ t.ir = s.ir ∧ t.cfg = s.cfg)

/-- A GETC or IN on stalled input does not return: the run stays in the waiting state for ever (R86). That
a wait is a step that changes nothing is the model's choice (log 20). -/
def Obligations.StalledKeyReadNeverReturns : Prop :=
  ∀ (s t : State) (k : KeyKind), s.run = .running → s.term.input = [] →
    s.term.inputEnd = .stall → exec k.trap s = .next t →
    t.activity = .wait k ∧ t.run = .running ∧ ∀ n : Nat, Steps n t t

/-- A waiting GETC or IN completes at the next step once a key is there or the input has ended (R114,
R120): R0 and COND as R89 and R92 say, IN echoing the key and not the end. -/
def Obligations.WaitingKeyReadResumes : Prop :=
  (∀ (s : State) (b : Byte), s.run = .running → s.activity = .wait .getc → s.term.nextKey = some b →
    ∃ t, step s = .next t ∧ (t.reg 0).toNat = b.toNat ∧ t.cond.Reports (t.reg 0) ∧ KeepsRegs [0] s t ∧
      t.pc = s.pc ∧ KeepsMemory s t ∧ t.term = s.term.dropKey ∧ CompletesRoutine s t) ∧
  (∀ (s : State) (b : Byte), s.run = .running → s.activity = .wait .inKey → s.term.nextKey = some b →
    ∃ t, step s = .next t ∧
      (s.cfg.inExtend = .zero → (t.reg 0).toNat = b.toNat) ∧ (s.cfg.inExtend = .sign → (t.reg 0).toInt = b.toInt) ∧
      t.cond.Reports (t.reg 0) ∧ KeepsRegs [0] s t ∧ t.pc = s.pc ∧ KeepsMemory s t ∧
      t.term = { s.term.dropKey with output := s.term.output ++ [b], flushed := s.term.output.length + 1 } ∧
      CompletesRoutine s t) ∧
  (∀ (s : State) (k : KeyKind), s.run = .running → s.activity = .wait k → s.term.input = [] →
    s.term.inputEnd = .eof →
    ∃ t, step s = .next t ∧ t.reg 0 = s.cfg.eofSentinel ∧ t.cond.Reports (t.reg 0) ∧ KeepsRegs [0] s t ∧
      t.pc = s.pc ∧ KeepsMemory s t ∧ t.term.output = s.term.output ∧ t.term.input = [] ∧ CompletesRoutine s t)

/-- HALT: the notice is written and flushed, RUN becomes HALTED, R7 and PC hold the post-fetch PC, and
everything else is as before (R88, R94, R102). -/
def Obligations.HaltWritesTheNoticeAndHalts : Prop :=
  (∀ w : Word, w &&& 0xF0FF = 0xF025 → decode w = .trapHalt) ∧
  (∀ s : State, ∃ t, exec .trapHalt s = .next t ∧ t.run = .halted ∧
    t.term = { s.term with output := s.term.output ++ s.cfg.haltNotice
                           flushed := s.term.output.length + s.cfg.haltNotice.length } ∧
    t.reg 7 = s.pc ∧ KeepsRegs [7] s t ∧ t.pc = s.pc ∧ t.cond = s.cond ∧ KeepsMemory s t ∧
    t.cfg = s.cfg ∧ t.ir = s.ir ∧ t.activity = s.activity)

/-- A vector outside x20..x25: R7 is written; then, under the policy noop, nothing else happens, and under
fatal the engine aborts with cause UNDEFINED_TRAP and the record (IR, PC - 1), nothing else written (R88,
R95). -/
def Obligations.UndefinedVectorFollowsThePolicy : Prop :=
  ∀ (s : State) (v : Byte), v.toNat < 0x20 ∨ 0x25 < v.toNat →
    ∃ t, exec (.trap v) s = .next t ∧ t.reg 7 = s.pc ∧ KeepsRegs [7] s t ∧ t.pc = s.pc ∧ t.cond = s.cond ∧
      KeepsMemory s t ∧ t.term = s.term ∧ t.cfg = s.cfg ∧ t.ir = s.ir ∧ t.activity = s.activity ∧
      (s.cfg.undefTrapPolicy = .noop → t.run = s.run) ∧
      (s.cfg.undefTrapPolicy = .fatal → t.run = .aborted .undefinedTrap { word := s.ir, addr := s.pc - 1 })

/-! ### The fatal opcodes (44_reserved.md) -/

/-- RTI and RES abort, each with its cause and the record (IR, PC - 1); no register, flag, memory word or
terminal byte is changed; every word of the tag is the instruction (R97, R98). -/
def Obligations.RtiAndResAbort : Prop :=
  (∀ w : Word, w &&& 0xF000 = 0x8000 → decode w = .rti) ∧
  (∀ w : Word, w &&& 0xF000 = 0xD000 → decode w = .res) ∧
  (∀ (s : State) (i : Instr) (cause : AbortCause),
    (i = .rti ∧ cause = .illegalOpcodeRti) ∨ (i = .res ∧ cause = .illegalOpcodeRes) →
    ∃ t, exec i s = .next t ∧ t.run = .aborted cause { word := s.ir, addr := s.pc - 1 } ∧
      KeepsRegs [] s t ∧ t.pc = s.pc ∧ t.cond = s.cond ∧ KeepsMemory s t ∧ t.term = s.term ∧
      t.cfg = s.cfg ∧ t.ir = s.ir ∧ t.activity = s.activity)

/-! ### The image and runs (20_memory.md R50 to R52, 70_reset_and_hazards.md R117) -/

/-- Load (R50 to R52, the spec's decision D22, log 27): a stream of two bytes or more succeeds; its words,
big-endian, stand from its origin on as far as the address space goes; every other word, and all other
state, PC included, is unchanged; a last odd byte counts for nothing. A stream that cannot be read or
is shorter fails and changes nothing. -/
def Obligations.LoadPlacesTheImageWords : Prop :=
  (∀ (s : State) (hi lo : Byte) (rest : List Byte),
    let r := s.load (some (hi :: lo :: rest))
    let origin := 256 * hi.toNat + lo.toNat
    r.1 = .success ∧
    (∀ a : Word, origin ≤ a.toNat → a.toNat - origin < rest.length / 2 →
      (r.2.mem.read a).toNat = 256 * (rest.getD (2 * (a.toNat - origin)) 0).toNat +
        (rest.getD (2 * (a.toNat - origin) + 1) 0).toNat) ∧
    (∀ a : Word, a.toNat < origin ∨ rest.length / 2 ≤ a.toNat - origin → r.2.mem.read a = s.mem.read a) ∧
    KeepsRegs [] s r.2 ∧ r.2.pc = s.pc ∧ r.2.cond = s.cond ∧ r.2.term = s.term ∧ KeepsControl s r.2) ∧
  (∀ (s : State) (stream : Option (List Byte)), (∀ bytes, stream = some bytes → bytes.length < 2) →
    s.load stream = (.failure, s))

/-- Loading images, any number of them, failing ones included, keeps the invariant: a machine that was
created and loaded as R116 says has it. -/
def Obligations.LoadingKeepsTheInvariant : Prop :=
  ∀ (s : State) (streams : List (Option (List Byte))), s.Inv → (s.loadAll streams).Inv

/-- Zeroed memory is a slide of no-ops (R74, R117, which the spec derives): with no key to be polled, n
steps move PC on by n modulo 2^16 and change nothing a program can see. -/
def Obligations.ZeroedMemoryIsASlideOfNops : Prop :=
  ∀ (n : Nat) (s : State), s.run = .running → s.activity = .idle → (∀ a, s.mem.read a = 0) →
    s.term.nextKey = none →
    ∃ t, Steps n s t ∧ t.pc = s.pc + BitVec.ofNat 16 n ∧ t.run = .running ∧ t.activity = .idle ∧
      KeepsRegs [] s t ∧ t.cond = s.cond ∧ KeepsMemory s t ∧ t.term.output = s.term.output

/-! ### The step lemma of the endless scan, and the input as a sequence -/

/-- A step of an engine that is RUNNING inside PUTS or PUTSP, with STRING_READ_POLLS false and no zero word
in memory, leaves such an engine, with at least 65,536 bytes more written (R96, the spec's decision D24;
how many reads one step takes is the model's choice, log 19). -/
def Obligations.StepInsideAnEndlessScanStaysInside : Prop :=
  ∀ (s t : State) (k : StringKind),
    s.run = .running → (∃ a, s.activity = .scan k a) → s.cfg.stringReadPolls = false → (∀ a, s.mem.read a ≠ 0) →
    step s = .next t →
    t.run = .running ∧ (∃ a, t.activity = .scan k a) ∧ t.cfg.stringReadPolls = false ∧ (∀ a, t.mem.read a ≠ 0) ∧
      s.term.output.length + 65536 ≤ t.term.output.length

/-- KbdRead takes the bytes of the input one by one, in order, and finds end-of-input or a stall once there
is none; an infinite input always has a next byte (R28, R86; that infinite inputs are a list and then the
free bytes `Config.endlessByte`, whatever they are, is the model's form of them, log 13). -/
def Obligations.KbdReadTakesTheInputInOrder : Prop :=
  ∀ t : Terminal,
    t.nextKey = t.byteAt 0 ∧ t.Consumed 1 t.dropKey ∧
    (t.dropKey.output = t.output ∧ t.dropKey.flushed = t.flushed ∧ t.dropKey.polls = t.polls ∧
      t.dropKey.drawn = t.drawn) ∧
    (∀ b, t.byteAt 0 = some b → t.kbdRead = (.byte b, t.dropKey)) ∧
    (t.byteAt 0 = none → t.inputEnd = .eof → t.kbdRead = (.eof, t)) ∧
    (t.byteAt 0 = none → t.inputEnd = .stall → t.kbdRead = (.stall, t)) ∧
    (∀ i b, t.input[i]? = some b → t.byteAt i = some b) ∧
    (∀ i, t.input.length ≤ i → (t.inputEnd = .eof ∨ t.inputEnd = .stall → t.byteAt i = none) ∧
      ∀ next, t.inputEnd = .endless next → t.byteAt i = some (Config.endlessByte (next + (i - t.input.length))))
end

