-- ==== Sys2Proof/Laws/Encoding.lean ====
section
/-! SUPPORT. Fields of encoded words, format by format, and what a word that matches a row of the opcode
table decodes to. -/

namespace Sys2Proof

@[simp] theorem Opcode.ofTag_tag (o : Opcode) : Opcode.ofTag o.tag = o := by cases o <;> rfl

/-! ### Fields of encoded words (R55) -/

section PcRel
variable (o : Opcode) (r : RegIdx) (off9 : BitVec 9)

@[simp] theorem opcodeOf_encodePcRel : opcodeOf (encodePcRel o r off9) = o.tag := by
  unfold opcodeOf field encodePcRel
  rw [BitVec.extractLsb'_append_eq_of_le (by decide), BitVec.extractLsb'_append_eq_of_le (by decide)]
  exact BitVec.extractLsb'_eq_self

@[simp] theorem drOf_encodePcRel : drOf (encodePcRel o r off9) = r := by
  unfold drOf field encodePcRel
  rw [BitVec.extractLsb'_append_eq_of_le (by decide), BitVec.extractLsb'_append_eq_of_add_le (by decide)]
  exact BitVec.extractLsb'_eq_self

@[simp] theorem off9Of_encodePcRel : off9Of (encodePcRel o r off9) = off9 := by
  unfold off9Of field encodePcRel
  rw [BitVec.extractLsb'_append_eq_of_add_le (by decide)]
  exact BitVec.extractLsb'_eq_self

end PcRel

section Base
variable (o : Opcode) (r baseR : RegIdx) (off6 : BitVec 6)

@[simp] theorem opcodeOf_encodeBase : opcodeOf (encodeBase o r baseR off6) = o.tag := by
  unfold opcodeOf field encodeBase
  rw [BitVec.extractLsb'_append_eq_of_le (by decide), BitVec.extractLsb'_append_eq_of_le (by decide),
    BitVec.extractLsb'_append_eq_of_le (by decide)]
  exact BitVec.extractLsb'_eq_self

@[simp] theorem drOf_encodeBase : drOf (encodeBase o r baseR off6) = r := by
  unfold drOf field encodeBase
  rw [BitVec.extractLsb'_append_eq_of_le (by decide), BitVec.extractLsb'_append_eq_of_le (by decide),
    BitVec.extractLsb'_append_eq_of_add_le (by decide)]
  exact BitVec.extractLsb'_eq_self

@[simp] theorem sr1Of_encodeBase : sr1Of (encodeBase o r baseR off6) = baseR := by
  unfold sr1Of field encodeBase
  rw [BitVec.extractLsb'_append_eq_of_le (by decide), BitVec.extractLsb'_append_eq_of_add_le (by decide)]
  exact BitVec.extractLsb'_eq_self

@[simp] theorem off6Of_encodeBase : off6Of (encodeBase o r baseR off6) = off6 := by
  unfold off6Of field encodeBase
  rw [BitVec.extractLsb'_append_eq_of_add_le (by decide)]
  exact BitVec.extractLsb'_eq_self

end Base

section Operate
variable (o : Opcode) (dr sr1 sr2 : RegIdx) (imm5 : BitVec 5)

/-- The two operand forms differ in what stands in bits 5:0: both are the base format with those bits. -/
theorem encodeOpr_eq : encodeOpr o dr sr1 sr2 = encodeBase o dr sr1 (0#3 ++ sr2) := by
  simp [encodeOpr, encodeBase]

theorem encodeOpi_eq : encodeOpi o dr sr1 imm5 = encodeBase o dr sr1 (1#1 ++ imm5) := rfl

@[simp] theorem immFlagOf_encodeBase (off6 : BitVec 6) :
    immFlagOf (encodeBase o dr sr1 off6) = off6.getLsbD 5 := by
  unfold immFlagOf encodeBase
  rw [BitVec.getLsbD_append]
  simp

@[simp] theorem sr2Of_encodeBase (off6 : BitVec 6) :
    sr2Of (encodeBase o dr sr1 off6) = off6.extractLsb' 0 3 := by
  unfold sr2Of field encodeBase
  rw [BitVec.extractLsb'_append_eq_of_add_le (by decide)]

@[simp] theorem imm5Of_encodeBase (off6 : BitVec 6) :
    imm5Of (encodeBase o dr sr1 off6) = off6.extractLsb' 0 5 := by
  unfold imm5Of field encodeBase
  rw [BitVec.extractLsb'_append_eq_of_add_le (by decide)]

end Operate

theorem opr_low (sr2 : RegIdx) : (0#3 ++ sr2 : BitVec 6)[5] = false ∧
    (0#3 ++ sr2 : BitVec 6).extractLsb' 0 3 = sr2 := by
  revert sr2; decide

theorem opi_low (imm5 : BitVec 5) : (1#1 ++ imm5 : BitVec 6)[5] = true ∧
    (1#1 ++ imm5 : BitVec 6).extractLsb' 0 5 = imm5 := by
  revert imm5; decide

section Jsr
variable (off11 : BitVec 11) (baseR : RegIdx)

@[simp] theorem opcodeOf_encodeJsr : opcodeOf (encode (.jsr off11)) = Opcode.jsr.tag := by
  unfold opcodeOf field encode
  rw [BitVec.extractLsb'_append_eq_of_le (by decide), BitVec.extractLsb'_append_eq_of_le (by decide)]
  exact BitVec.extractLsb'_eq_self

@[simp] theorem longFlagOf_encodeJsr : longFlagOf (encode (.jsr off11)) = true := by
  unfold longFlagOf encode
  rw [BitVec.getLsbD_append, BitVec.getLsbD_append]
  simp

@[simp] theorem off11Of_encodeJsr : off11Of (encode (.jsr off11)) = off11 := by
  unfold off11Of field encode
  rw [BitVec.extractLsb'_append_eq_of_add_le (by decide)]
  exact BitVec.extractLsb'_eq_self

@[simp] theorem opcodeOf_encodeJsrr : opcodeOf (encode (.jsrr baseR)) = Opcode.jsr.tag := by
  unfold opcodeOf field encode
  rw [BitVec.extractLsb'_append_eq_of_le (by decide), BitVec.extractLsb'_append_eq_of_le (by decide),
    BitVec.extractLsb'_append_eq_of_le (by decide)]
  exact BitVec.extractLsb'_eq_self

@[simp] theorem longFlagOf_encodeJsrr : longFlagOf (encode (.jsrr baseR)) = false := by
  unfold longFlagOf encode
  rw [BitVec.getLsbD_append, BitVec.getLsbD_append, BitVec.getLsbD_append]
  simp
  decide

@[simp] theorem sr1Of_encodeJsrr : sr1Of (encode (.jsrr baseR)) = baseR := by
  unfold sr1Of field encode
  rw [BitVec.extractLsb'_append_eq_of_add_le (by decide), BitVec.extractLsb'_append_eq_of_le (by decide)]
  exact BitVec.extractLsb'_eq_self

end Jsr

@[simp] theorem opcodeOf_encodeTrap (v : Byte) : opcodeOf (encodeTrap v) = Opcode.trap.tag := by
  unfold opcodeOf field encodeTrap
  rw [BitVec.extractLsb'_append_eq_of_le (by decide), BitVec.extractLsb'_append_eq_of_le (by decide)]
  exact BitVec.extractLsb'_eq_self

@[simp] theorem vect8Of_encodeTrap (v : Byte) : vect8Of (encodeTrap v) = v := by
  unfold vect8Of field encodeTrap
  rw [BitVec.extractLsb'_append_eq_of_add_le (by decide)]
  exact BitVec.extractLsb'_eq_self

/-- TRAP's own constructor is what an undefined vector decodes to (R60). -/
theorem trapOf_of_undefined {v : Byte} (h : definedVector v = false) : trapOf v = .trap v := by
  have hn : ∀ k : Byte, definedVector k = true → v ≠ k := by
    rintro k hk rfl; simp [hk] at h
  unfold trapOf
  rw [if_neg (hn _ rfl), if_neg (hn _ rfl), if_neg (hn _ rfl), if_neg (hn _ rfl), if_neg (hn _ rfl),
    if_neg (hn _ rfl)]

/-- A defined vector is one of the six. -/
theorem definedVector_cases {v : Byte} (h : definedVector v = true) :
    v = 0x20 ∨ v = 0x21 ∨ v = 0x22 ∨ v = 0x23 ∨ v = 0x24 ∨ v = 0x25 := by
  simp only [definedVector, Bool.and_eq_true, decide_eq_true_eq] at h
  have : v.toNat = 0x20 ∨ v.toNat = 0x21 ∨ v.toNat = 0x22 ∨ v.toNat = 0x23 ∨ v.toNat = 0x24 ∨ v.toNat = 0x25 := by
    omega
  rcases this with h | h | h | h | h | h
  · exact .inl (BitVec.eq_of_toNat_eq h)
  · exact .inr (.inl (BitVec.eq_of_toNat_eq h))
  · exact .inr (.inr (.inl (BitVec.eq_of_toNat_eq h)))
  · exact .inr (.inr (.inr (.inl (BitVec.eq_of_toNat_eq h))))
  · exact .inr (.inr (.inr (.inr (.inl (BitVec.eq_of_toNat_eq h)))))
  · exact .inr (.inr (.inr (.inr (.inr (BitVec.eq_of_toNat_eq h)))))

/-- Every word decodes to a well-formed instruction. -/
theorem decode_wf (w : Word) : (decode w).wf = true := by
  unfold decode
  split <;> try rfl
  case h_2 => split <;> rfl
  case h_5 => split <;> rfl
  case h_6 => split <;> rfl
  case h_16 =>
    rcases hv : definedVector (vect8Of w)
    · rw [trapOf_of_undefined hv]; simp [Instr.wf, hv]
    · rcases definedVector_cases hv with h | h | h | h | h | h <;> rw [h] <;> rfl

/-! ### Fields under a mask -/

/-- A field that a mask covers is read from the masked word. -/
theorem field_and {w m : Word} {lo n : Nat} (hm : field m lo n = BitVec.allOnes n) :
    field (w &&& m) lo n = field w lo n := by
  unfold field at *
  rw [BitVec.extractLsb'_and, hm, BitVec.and_allOnes]

/-- Words that agree on a mask agree on every field the mask covers. -/
theorem field_eq_of_and_eq {w w' m : Word} (h : w &&& m = w' &&& m) {lo n : Nat}
    (hm : field m lo n = BitVec.allOnes n) : field w lo n = field w' lo n := by
  rw [← field_and hm, h, field_and hm]

/-- The same for one bit. -/
theorem getLsbD_eq_of_and_eq {w w' m : Word} (h : w &&& m = w' &&& m) {i : Nat} (hm : m.getLsbD i = true) :
    w.getLsbD i = w'.getLsbD i := by
  have := congrArg (·.getLsbD i) h
  simpa [hm] using this

/-! ### Decoding by tag and flag (R59, R64) -/

section ByTag
variable {w : Word}

theorem decode_br (h : Opcode.ofTag (opcodeOf w) = .br) : decode w = .br (drOf w) (off9Of w) := by
  simp only [decode, h]
theorem decode_ld (h : Opcode.ofTag (opcodeOf w) = .ld) : decode w = .ld (drOf w) (off9Of w) := by
  simp only [decode, h]
theorem decode_st (h : Opcode.ofTag (opcodeOf w) = .st) : decode w = .st (drOf w) (off9Of w) := by
  simp only [decode, h]
theorem decode_ldr (h : Opcode.ofTag (opcodeOf w) = .ldr) : decode w = .ldr (drOf w) (sr1Of w) (off6Of w) := by
  simp only [decode, h]
theorem decode_str (h : Opcode.ofTag (opcodeOf w) = .str) : decode w = .str (drOf w) (sr1Of w) (off6Of w) := by
  simp only [decode, h]
theorem decode_rti (h : Opcode.ofTag (opcodeOf w) = .rti) : decode w = .rti := by
  simp only [decode, h]
theorem decode_not (h : Opcode.ofTag (opcodeOf w) = .not) : decode w = .not (drOf w) (sr1Of w) := by
  simp only [decode, h]
theorem decode_ldi (h : Opcode.ofTag (opcodeOf w) = .ldi) : decode w = .ldi (drOf w) (off9Of w) := by
  simp only [decode, h]
theorem decode_sti (h : Opcode.ofTag (opcodeOf w) = .sti) : decode w = .sti (drOf w) (off9Of w) := by
  simp only [decode, h]
theorem decode_jmp (h : Opcode.ofTag (opcodeOf w) = .jmp) : decode w = .jmp (sr1Of w) := by
  simp only [decode, h]
theorem decode_res (h : Opcode.ofTag (opcodeOf w) = .res) : decode w = .res := by
  simp only [decode, h]
theorem decode_lea (h : Opcode.ofTag (opcodeOf w) = .lea) : decode w = .lea (drOf w) (off9Of w) := by
  simp only [decode, h]
theorem decode_trap (h : Opcode.ofTag (opcodeOf w) = .trap) : decode w = trapOf (vect8Of w) := by
  simp only [decode, h]
theorem decode_addReg (h : Opcode.ofTag (opcodeOf w) = .add) (hf : immFlagOf w = false) : decode w = .addReg (drOf w) (sr1Of w) (sr2Of w) := by
  simp [decode, h, hf]
theorem decode_addImm (h : Opcode.ofTag (opcodeOf w) = .add) (hf : immFlagOf w = true) : decode w = .addImm (drOf w) (sr1Of w) (imm5Of w) := by
  simp [decode, h, hf]
theorem decode_andReg (h : Opcode.ofTag (opcodeOf w) = .and) (hf : immFlagOf w = false) : decode w = .andReg (drOf w) (sr1Of w) (sr2Of w) := by
  simp [decode, h, hf]
theorem decode_andImm (h : Opcode.ofTag (opcodeOf w) = .and) (hf : immFlagOf w = true) : decode w = .andImm (drOf w) (sr1Of w) (imm5Of w) := by
  simp [decode, h, hf]
theorem decode_jsr (h : Opcode.ofTag (opcodeOf w) = .jsr) (hf : longFlagOf w = true) : decode w = .jsr (off11Of w) := by
  simp [decode, h, hf]
theorem decode_jsrr (h : Opcode.ofTag (opcodeOf w) = .jsr) (hf : longFlagOf w = false) : decode w = .jsrr (sr1Of w) := by
  simp [decode, h, hf]

/-- The tag of a word that matches a row whose mask covers bits 15:12. -/
theorem opcodeOf_of_row {m p : Word} (h : w &&& m = p) (hm : field m 12 4 = BitVec.allOnes 4) :
    opcodeOf w = opcodeOf p := by
  unfold opcodeOf
  rw [← field_and hm, h]

/-- A bit of a word that matches a row whose mask covers it. -/
theorem getLsbD_of_row {m p : Word} (h : w &&& m = p) {i : Nat} (hm : m.getLsbD i = true) :
    w.getLsbD i = p.getLsbD i := by
  have := congrArg (·.getLsbD i) h
  simpa [hm] using this

end ByTag

end Sys2Proof
end

