-- ==== Sys2Proof/Laws/State.lean ====
section
/-! SUPPORT. One lemma per field per update of State, true by `rfl`, so that no later proof unfolds a
record update; and registers after each update. -/

namespace Sys2Proof.Machine

/-! ### setReg -/

@[simp] theorem State.setReg_cfg (s : State) (i : RegIdx) (v : Word) : (s.setReg i v).cfg = s.cfg := rfl
@[simp] theorem State.setReg_regs (s : State) (i : RegIdx) (v : Word) : (s.setReg i v).regs = s.regs.set i.toNat v i.isLt := rfl
@[simp] theorem State.setReg_pc (s : State) (i : RegIdx) (v : Word) : (s.setReg i v).pc = s.pc := rfl
@[simp] theorem State.setReg_cond (s : State) (i : RegIdx) (v : Word) : (s.setReg i v).cond = s.cond := rfl
@[simp] theorem State.setReg_ir (s : State) (i : RegIdx) (v : Word) : (s.setReg i v).ir = s.ir := rfl
@[simp] theorem State.setReg_mem (s : State) (i : RegIdx) (v : Word) : (s.setReg i v).mem = s.mem := rfl
@[simp] theorem State.setReg_run (s : State) (i : RegIdx) (v : Word) : (s.setReg i v).run = s.run := rfl
@[simp] theorem State.setReg_activity (s : State) (i : RegIdx) (v : Word) : (s.setReg i v).activity = s.activity := rfl
@[simp] theorem State.setReg_term (s : State) (i : RegIdx) (v : Word) : (s.setReg i v).term = s.term := rfl

/-! ### setCC -/

@[simp] theorem State.setCC_cfg (s : State) (v : Word) : (s.setCC v).cfg = s.cfg := rfl
@[simp] theorem State.setCC_regs (s : State) (v : Word) : (s.setCC v).regs = s.regs := rfl
@[simp] theorem State.setCC_pc (s : State) (v : Word) : (s.setCC v).pc = s.pc := rfl
@[simp] theorem State.setCC_cond (s : State) (v : Word) : (s.setCC v).cond = Cond.ofWord v := rfl
@[simp] theorem State.setCC_ir (s : State) (v : Word) : (s.setCC v).ir = s.ir := rfl
@[simp] theorem State.setCC_mem (s : State) (v : Word) : (s.setCC v).mem = s.mem := rfl
@[simp] theorem State.setCC_run (s : State) (v : Word) : (s.setCC v).run = s.run := rfl
@[simp] theorem State.setCC_activity (s : State) (v : Word) : (s.setCC v).activity = s.activity := rfl
@[simp] theorem State.setCC_term (s : State) (v : Word) : (s.setCC v).term = s.term := rfl

/-! ### writeResult -/

@[simp] theorem State.writeResult_cfg (s : State) (dr : RegIdx) (v : Word) : (s.writeResult dr v).cfg = s.cfg := rfl
@[simp] theorem State.writeResult_regs (s : State) (dr : RegIdx) (v : Word) : (s.writeResult dr v).regs = s.regs.set dr.toNat v dr.isLt := rfl
@[simp] theorem State.writeResult_pc (s : State) (dr : RegIdx) (v : Word) : (s.writeResult dr v).pc = s.pc := rfl
@[simp] theorem State.writeResult_cond (s : State) (dr : RegIdx) (v : Word) : (s.writeResult dr v).cond = Cond.ofWord v := rfl
@[simp] theorem State.writeResult_ir (s : State) (dr : RegIdx) (v : Word) : (s.writeResult dr v).ir = s.ir := rfl
@[simp] theorem State.writeResult_mem (s : State) (dr : RegIdx) (v : Word) : (s.writeResult dr v).mem = s.mem := rfl
@[simp] theorem State.writeResult_run (s : State) (dr : RegIdx) (v : Word) : (s.writeResult dr v).run = s.run := rfl
@[simp] theorem State.writeResult_activity (s : State) (dr : RegIdx) (v : Word) : (s.writeResult dr v).activity = s.activity := rfl
@[simp] theorem State.writeResult_term (s : State) (dr : RegIdx) (v : Word) : (s.writeResult dr v).term = s.term := rfl

/-! ### memWrite -/

@[simp] theorem State.memWrite_cfg (s : State) (a v : Word) : (s.memWrite a v).cfg = s.cfg := rfl
@[simp] theorem State.memWrite_regs (s : State) (a v : Word) : (s.memWrite a v).regs = s.regs := rfl
@[simp] theorem State.memWrite_pc (s : State) (a v : Word) : (s.memWrite a v).pc = s.pc := rfl
@[simp] theorem State.memWrite_cond (s : State) (a v : Word) : (s.memWrite a v).cond = s.cond := rfl
@[simp] theorem State.memWrite_ir (s : State) (a v : Word) : (s.memWrite a v).ir = s.ir := rfl
@[simp] theorem State.memWrite_mem (s : State) (a v : Word) : (s.memWrite a v).mem = s.mem.write a v := rfl
@[simp] theorem State.memWrite_run (s : State) (a v : Word) : (s.memWrite a v).run = s.run := rfl
@[simp] theorem State.memWrite_activity (s : State) (a v : Word) : (s.memWrite a v).activity = s.activity := rfl
@[simp] theorem State.memWrite_term (s : State) (a v : Word) : (s.memWrite a v).term = s.term := rfl

/-! ### ttyWrite -/

@[simp] theorem State.ttyWrite_cfg (s : State) (bs : List Byte) : (s.ttyWrite bs).cfg = s.cfg := rfl
@[simp] theorem State.ttyWrite_regs (s : State) (bs : List Byte) : (s.ttyWrite bs).regs = s.regs := rfl
@[simp] theorem State.ttyWrite_pc (s : State) (bs : List Byte) : (s.ttyWrite bs).pc = s.pc := rfl
@[simp] theorem State.ttyWrite_cond (s : State) (bs : List Byte) : (s.ttyWrite bs).cond = s.cond := rfl
@[simp] theorem State.ttyWrite_ir (s : State) (bs : List Byte) : (s.ttyWrite bs).ir = s.ir := rfl
@[simp] theorem State.ttyWrite_mem (s : State) (bs : List Byte) : (s.ttyWrite bs).mem = s.mem := rfl
@[simp] theorem State.ttyWrite_run (s : State) (bs : List Byte) : (s.ttyWrite bs).run = s.run := rfl
@[simp] theorem State.ttyWrite_activity (s : State) (bs : List Byte) : (s.ttyWrite bs).activity = s.activity := rfl
@[simp] theorem State.ttyWrite_term (s : State) (bs : List Byte) : (s.ttyWrite bs).term = { s.term with output := s.term.output ++ bs } := rfl

/-! ### ttyFlush -/

@[simp] theorem State.ttyFlush_cfg (s : State) : (s.ttyFlush).cfg = s.cfg := rfl
@[simp] theorem State.ttyFlush_regs (s : State) : (s.ttyFlush).regs = s.regs := rfl
@[simp] theorem State.ttyFlush_pc (s : State) : (s.ttyFlush).pc = s.pc := rfl
@[simp] theorem State.ttyFlush_cond (s : State) : (s.ttyFlush).cond = s.cond := rfl
@[simp] theorem State.ttyFlush_ir (s : State) : (s.ttyFlush).ir = s.ir := rfl
@[simp] theorem State.ttyFlush_mem (s : State) : (s.ttyFlush).mem = s.mem := rfl
@[simp] theorem State.ttyFlush_run (s : State) : (s.ttyFlush).run = s.run := rfl
@[simp] theorem State.ttyFlush_activity (s : State) : (s.ttyFlush).activity = s.activity := rfl
@[simp] theorem State.ttyFlush_term (s : State) : (s.ttyFlush).term = { s.term with flushed := s.term.output.length } := rfl

/-! ### abort -/

@[simp] theorem State.abort_cfg (s : State) (c : AbortCause) : (s.abort c).cfg = s.cfg := rfl
@[simp] theorem State.abort_regs (s : State) (c : AbortCause) : (s.abort c).regs = s.regs := rfl
@[simp] theorem State.abort_pc (s : State) (c : AbortCause) : (s.abort c).pc = s.pc := rfl
@[simp] theorem State.abort_cond (s : State) (c : AbortCause) : (s.abort c).cond = s.cond := rfl
@[simp] theorem State.abort_ir (s : State) (c : AbortCause) : (s.abort c).ir = s.ir := rfl
@[simp] theorem State.abort_mem (s : State) (c : AbortCause) : (s.abort c).mem = s.mem := rfl
@[simp] theorem State.abort_run (s : State) (c : AbortCause) : (s.abort c).run = .aborted c ⟨s.ir, s.pc - 1⟩ := rfl
@[simp] theorem State.abort_activity (s : State) (c : AbortCause) : (s.abort c).activity = s.activity := rfl
@[simp] theorem State.abort_term (s : State) (c : AbortCause) : (s.abort c).term = s.term := rfl

/-! ### halt -/

@[simp] theorem State.halt_cfg (s : State) : (s.halt).cfg = s.cfg := rfl
@[simp] theorem State.halt_regs (s : State) : (s.halt).regs = s.regs := rfl
@[simp] theorem State.halt_pc (s : State) : (s.halt).pc = s.pc := rfl
@[simp] theorem State.halt_cond (s : State) : (s.halt).cond = s.cond := rfl
@[simp] theorem State.halt_ir (s : State) : (s.halt).ir = s.ir := rfl
@[simp] theorem State.halt_mem (s : State) : (s.halt).mem = s.mem := rfl
@[simp] theorem State.halt_run (s : State) : (s.halt).run = .halted := rfl
@[simp] theorem State.halt_activity (s : State) : (s.halt).activity = s.activity := rfl
@[simp] theorem State.halt_term (s : State) : (s.halt).term = s.term := rfl

/-! ### link -/

@[simp] theorem State.link_cfg (s : State) : (s.link).cfg = s.cfg := rfl
@[simp] theorem State.link_regs (s : State) : (s.link).regs = s.regs.set 7 s.pc (by decide) := rfl
@[simp] theorem State.link_pc (s : State) : (s.link).pc = s.pc := rfl
@[simp] theorem State.link_cond (s : State) : (s.link).cond = s.cond := rfl
@[simp] theorem State.link_ir (s : State) : (s.link).ir = s.ir := rfl
@[simp] theorem State.link_mem (s : State) : (s.link).mem = s.mem := rfl
@[simp] theorem State.link_run (s : State) : (s.link).run = s.run := rfl
@[simp] theorem State.link_activity (s : State) : (s.link).activity = s.activity := rfl
@[simp] theorem State.link_term (s : State) : (s.link).term = s.term := rfl

/-! ### finishKey -/

@[simp] theorem State.finishKey_cfg (s : State) (v : Word) : (s.finishKey v).cfg = s.cfg := rfl
@[simp] theorem State.finishKey_regs (s : State) (v : Word) : (s.finishKey v).regs = s.regs.set 0 v (by decide) := rfl
@[simp] theorem State.finishKey_pc (s : State) (v : Word) : (s.finishKey v).pc = s.pc := rfl
@[simp] theorem State.finishKey_cond (s : State) (v : Word) : (s.finishKey v).cond = Cond.ofWord v := rfl
@[simp] theorem State.finishKey_ir (s : State) (v : Word) : (s.finishKey v).ir = s.ir := rfl
@[simp] theorem State.finishKey_mem (s : State) (v : Word) : (s.finishKey v).mem = s.mem := rfl
@[simp] theorem State.finishKey_run (s : State) (v : Word) : (s.finishKey v).run = s.run := rfl
@[simp] theorem State.finishKey_activity (s : State) (v : Word) : (s.finishKey v).activity = .idle := rfl
@[simp] theorem State.finishKey_term (s : State) (v : Word) : (s.finishKey v).term = s.term := rfl

/-! ### Registers -/

@[simp] theorem State.reg_setReg_same (s : State) (i : RegIdx) (v : Word) : (s.setReg i v).reg i = v := by
  simp [State.reg]

theorem State.reg_setReg_ne (s : State) {i j : RegIdx} (v : Word) (h : j ≠ i) :
    (s.setReg i v).reg j = s.reg j := by
  have hn : i.toNat ≠ j.toNat := fun e => h (BitVec.eq_of_toNat_eq e.symm)
  simp [State.reg, hn]

theorem State.reg_setReg (s : State) (i j : RegIdx) (v : Word) :
    (s.setReg i v).reg j = if j = i then v else s.reg j := by
  by_cases h : j = i
  · subst h; simp
  · simp [h, s.reg_setReg_ne v h]

/-- The register file read of a state depends on its register file only. -/
theorem State.reg_congr {s t : State} (h : t.regs = s.regs) (i : RegIdx) : t.reg i = s.reg i := by
  simp [State.reg, h]

@[simp] theorem State.reg_setCC (s : State) (v : Word) (i : RegIdx) : (s.setCC v).reg i = s.reg i := rfl
@[simp] theorem State.reg_memWrite (s : State) (a v : Word) (i : RegIdx) : (s.memWrite a v).reg i = s.reg i := rfl
@[simp] theorem State.reg_ttyWrite (s : State) (bs : List Byte) (i : RegIdx) : (s.ttyWrite bs).reg i = s.reg i := rfl
@[simp] theorem State.reg_ttyFlush (s : State) (i : RegIdx) : s.ttyFlush.reg i = s.reg i := rfl
@[simp] theorem State.reg_abort (s : State) (c : AbortCause) (i : RegIdx) : (s.abort c).reg i = s.reg i := rfl
@[simp] theorem State.reg_halt (s : State) (i : RegIdx) : s.halt.reg i = s.reg i := rfl

theorem State.reg_writeResult (s : State) (dr i : RegIdx) (v : Word) :
    (s.writeResult dr v).reg i = if i = dr then v else s.reg i := s.reg_setReg dr i v

theorem State.reg_link (s : State) (i : RegIdx) : s.link.reg i = if i = 7 then s.pc else s.reg i :=
  s.reg_setReg 7 i s.pc

theorem State.reg_finishKey (s : State) (i : RegIdx) (v : Word) :
    (s.finishKey v).reg i = if i = 0 then v else s.reg i := State.reg_setReg _ 0 i v

/-! ### Condition flags -/

/-- SetCC leaves COND reporting the value (R21). -/
theorem Cond.ofWord_reports (v : Word) : (Cond.ofWord v).Reports v := by
  have hv : v = 0 ↔ v.toNat = 0 := ⟨fun h => by rw [h]; rfl, fun h => BitVec.eq_of_toNat_eq (by rw [h]; rfl)⟩
  have hm : v.msb = decide (32768 ≤ v.toNat) := BitVec.msb_eq_decide ..
  unfold Cond.Reports Cond.ofWord
  split
  case isTrue h => simp [h]
  case isFalse h =>
    rw [hv] at h
    split
    case isTrue h' => simp only [hm, decide_eq_true_eq] at h'; simp only [reduceCtorEq, false_iff, true_iff]; omega
    case isFalse h' => simp only [hm, decide_eq_true_eq] at h'; simp only [reduceCtorEq, false_iff, true_iff]; omega

/-- BR's test on the one-hot code is a test of one mask bit (R74). -/
theorem Cond.matches_eq (c : Cond) (mask : BitVec 3) :
    c.matches mask = match c with
      | .n => mask.getLsbD 2
      | .z => mask.getLsbD 1
      | .p => mask.getLsbD 0 := by
  cases c <;> revert mask <;> decide

end Sys2Proof.Machine
end

