-- ==== Sys2Proof/Laws/Memory.lean ====
section
/-! SUPPORT. The memory as data: a read after a write, on every memory, canonical or not; every operation
keeps the canonical form; canonical memories that read alike are equal. -/

namespace Sys2Proof.Machine

/-! ### Lookup -/

@[simp] theorem Memory.lookup_nil (a : Nat) : Memory.lookup [] a = 0 := rfl

theorem Memory.lookup_cons (k : Nat) (v : Word) (m : Memory) (a : Nat) :
    Memory.lookup ((k, v) :: m) a = if k = a then v else Memory.lookup m a := rfl

@[simp] theorem Memory.read_nil (a : Word) : Memory.read [] a = 0 := rfl

/-- Taking an address's cell out: it then reads 0, and every other address as before. -/
theorem Memory.lookup_filter (m : Memory) (a b : Nat) :
    Memory.lookup (m.filter (fun c => c.1 != a)) b = if b = a then 0 else Memory.lookup m b := by
  induction m with
  | nil => simp
  | cons c m ih =>
    obtain ⟨k, v⟩ := c
    by_cases hk : k = a
    · subst hk
      by_cases hb : b = k
      · subst hb; simp [ih]
      · simp [Memory.lookup_cons, ih, hb, Ne.symm hb]
    · by_cases hb : b = a
      · subst hb; simp [Memory.lookup_cons, ih, hk]
      · simp [Memory.lookup_cons, ih, hk, hb]

/-- Putting in a cell for an address that has none. -/
theorem Memory.lookup_insertCell (m : Memory) (a b : Nat) (v : Word) (h : ∀ c ∈ m, c.1 ≠ a) :
    Memory.lookup (Memory.insertCell m a v) b = if b = a then v else Memory.lookup m b := by
  induction m with
  | nil => simp [Memory.insertCell, Memory.lookup_cons, eq_comm]
  | cons c m ih =>
    obtain ⟨k, w⟩ := c
    have hk : k ≠ a := h (k, w) (by simp)
    have ih := ih fun c hc => h c (List.mem_cons_of_mem _ hc)
    by_cases hlt : a < k
    · simp [Memory.insertCell, hlt, Memory.lookup_cons, eq_comm]
    · by_cases hb : b = a
      · subst hb; simp [Memory.insertCell, hlt, Memory.lookup_cons, ih, hk]
      · simp [Memory.insertCell, hlt, Memory.lookup_cons, ih, hb]

/-! ### Read after write -/

theorem Memory.read_write (m : Memory) (a b v : Word) :
    (m.write a v).read b = if b = a then v else m.read b := by
  have hab : b.toNat = a.toNat ↔ b = a := BitVec.toNat_inj
  unfold Memory.write Memory.read
  split
  case isTrue hv => simp [Memory.lookup_filter, hab, hv]
  case isFalse =>
    rw [Memory.lookup_insertCell _ _ _ _ (by simp), Memory.lookup_filter]
    by_cases h : b = a <;> simp [hab, h]

@[simp] theorem Memory.read_write_same (m : Memory) (a v : Word) : (m.write a v).read a = v := by
  simp [Memory.read_write]

theorem Memory.read_write_ne (m : Memory) {a b : Word} (v : Word) (h : b ≠ a) :
    (m.write a v).read b = m.read b := by
  simp [Memory.read_write, h]

/-! ### The canonical form -/

@[simp] theorem Memory.wf_nil : Memory.wf [] := ⟨.nil, by simp⟩

theorem Memory.wf_filter {m : Memory} (h : m.wf) (p : Nat × Word → Bool) : Memory.wf (m.filter p) :=
  ⟨h.1.filter p, fun c hc => h.2 c (List.mem_of_mem_filter hc)⟩

theorem Memory.mem_insertCell {m : Memory} {a : Nat} {v : Word} {c : Nat × Word}
    (h : c ∈ Memory.insertCell m a v) : c = (a, v) ∨ c ∈ m := by
  induction m with
  | nil => simpa [Memory.insertCell] using h
  | cons d m ih =>
    obtain ⟨k, w⟩ := d
    by_cases hlt : a < k
    · simpa [Memory.insertCell, hlt] using h
    · simp only [Memory.insertCell, hlt, if_false, List.mem_cons] at h ⊢
      rcases h with h | h
      · exact .inr (.inl h)
      · exact (ih h).imp id .inr

theorem Memory.wf_insertCell {m : Memory} (h : m.wf) {a : Nat} {v : Word} (ha : a < 65536) (hv : v ≠ 0)
    (hna : ∀ c ∈ m, c.1 ≠ a) : Memory.wf (Memory.insertCell m a v) := by
  refine ⟨?_, fun c hc => ?_⟩
  · have hp := h.1
    clear h
    induction m with
    | nil => simp [Memory.insertCell]
    | cons d m ih =>
      obtain ⟨k, w⟩ := d
      have hk : k ≠ a := hna (k, w) (by simp)
      rw [List.pairwise_cons] at hp
      by_cases hlt : a < k
      · simp only [Memory.insertCell, hlt, if_true, List.pairwise_cons, List.mem_cons]
        refine ⟨fun c hc => ?_, hp⟩
        rcases hc with rfl | hc
        · exact hlt
        · exact lt_trans hlt (hp.1 c hc)
      · simp only [Memory.insertCell, hlt, if_false, List.pairwise_cons]
        refine ⟨fun c hc => ?_, ih (fun c hc => hna c (List.mem_cons_of_mem _ hc)) hp.2⟩
        rcases Memory.mem_insertCell hc with rfl | hc
        · show k < a; omega
        · exact hp.1 c hc
  · rcases Memory.mem_insertCell hc with rfl | hc
    · exact ⟨ha, hv⟩
    · exact h.2 c hc

/-- A write keeps the canonical form. -/
theorem Memory.wf_write {m : Memory} (h : m.wf) (a v : Word) : Memory.wf (m.write a v) := by
  unfold Memory.write
  split
  · exact Memory.wf_filter h _
  · exact Memory.wf_insertCell (Memory.wf_filter h _) a.isLt ‹_› (by simp)

/-- An address below every cell's reads 0. -/
theorem Memory.lookup_of_lt {m : Memory} {a : Nat} (h : ∀ c ∈ m, a < c.1) : Memory.lookup m a = 0 := by
  induction m with
  | nil => rfl
  | cons c m ih =>
    obtain ⟨k, v⟩ := c
    have : k ≠ a := (h (k, v) (by simp)).ne'
    simp [Memory.lookup_cons, this, ih fun c hc => h c (List.mem_cons_of_mem _ hc)]

theorem Memory.wf_cons {c : Nat × Word} {m : Memory} (h : Memory.wf (c :: m)) :
    c.1 < 65536 ∧ c.2 ≠ 0 ∧ (∀ d ∈ m, c.1 < d.1) ∧ Memory.wf m := by
  have hp := List.pairwise_cons.1 h.1
  have hc := h.2 c (by simp)
  exact ⟨hc.1, hc.2, hp.1, hp.2, fun d hd => h.2 d (List.mem_cons_of_mem _ hd)⟩

/-- Canonical memories with the same lookup at every address of the space are the same list. -/
theorem Memory.eq_of_lookup {m₁ m₂ : Memory} (h₁ : m₁.wf) (h₂ : m₂.wf)
    (h : ∀ a, a < 65536 → Memory.lookup m₁ a = Memory.lookup m₂ a) : m₁ = m₂ := by
  induction m₁ generalizing m₂ with
  | nil =>
    cases m₂ with
    | nil => rfl
    | cons d m₂ =>
      obtain ⟨k, v⟩ := d
      obtain ⟨hlt, hne, -, -⟩ := Memory.wf_cons h₂
      exact absurd (by simpa [Memory.lookup_cons] using (h k hlt).symm) hne
  | cons c m₁ ih =>
    obtain ⟨k, v⟩ := c
    obtain ⟨hlt, hne, hlo, hw⟩ := Memory.wf_cons h₁
    cases m₂ with
    | nil => exact absurd (by simpa [Memory.lookup_cons] using h k hlt) hne
    | cons d m₂ =>
      obtain ⟨j, w⟩ := d
      obtain ⟨hlt', hne', hlo', hw'⟩ := Memory.wf_cons h₂
      simp only at hlt hne hlo hlt' hne' hlo'
      have hkj : k = j := by
        rcases Nat.lt_trichotomy k j with hkj | hkj | hkj
        · have := h k hlt
          rw [Memory.lookup_cons, if_pos rfl, Memory.lookup_of_lt] at this
          · exact absurd this hne
          · intro c hc
            rcases List.mem_cons.1 hc with rfl | hc
            · exact hkj
            · exact lt_trans hkj (hlo' c hc)
        · exact hkj
        · have := h j hlt'
          rw [Memory.lookup_cons _ w, if_pos rfl, Memory.lookup_of_lt] at this
          · exact absurd this.symm hne'
          · intro c hc
            rcases List.mem_cons.1 hc with rfl | hc
            · exact hkj
            · exact lt_trans hkj (hlo c hc)
      subst hkj
      have hvw : v = w := by simpa [Memory.lookup_cons] using h k hlt
      subst hvw
      rw [ih hw hw' fun a ha => ?_]
      by_cases hka : k = a
      · subst hka
        rw [Memory.lookup_of_lt hlo, Memory.lookup_of_lt hlo']
      · simpa [Memory.lookup_cons, hka] using h a ha

/-- "Equal memories are equal data": canonical memories that read alike at every address are equal. -/
theorem Memory.eq_of_read {m₁ m₂ : Memory} (h₁ : m₁.wf) (h₂ : m₂.wf) (h : ∀ a, m₁.read a = m₂.read a) :
    m₁ = m₂ := by
  refine Memory.eq_of_lookup h₁ h₂ fun a ha => ?_
  have := h (BitVec.ofNat 16 a)
  simpa [Memory.read, Nat.mod_eq_of_lt ha] using this

end Sys2Proof.Machine
end

