-- ==== Sys2Proof/Laws/Operands.lean ====
section
/-! SUPPORT. What the operand helpers of Machine/Operands.lean compute: extension, byte halves, and sums
of a base and an extended offset. -/

namespace Sys2Proof.Machine

/-- The formula of R12 is two's-complement sign extension. -/
theorem sext16_eq_signExtend {n : Nat} (h1 : 1 ≤ n) (h2 : n < 16) (f : BitVec n) : sext16 f = f.signExtend 16 := by
  have hm : f.msb = f.getLsbD (n - 1) := BitVec.msb_eq_getLsbD_last f
  have ho : (0xFFFF#16) = BitVec.allOnes 16 := rfl
  apply BitVec.eq_of_getLsbD_eq
  intro i hi
  rw [BitVec.getLsbD_signExtend, hm]
  unfold sext16
  split
  case isTrue h =>
    rw [hm] at h
    by_cases hin : i < n
    · simp [hi, hin]
    · have : i - n < 16 := by omega
      rw [BitVec.getLsbD_or, BitVec.getLsbD_shiftLeft, ho, BitVec.getLsbD_allOnes]
      simp [hi, hin, h, this]
  case isFalse h =>
    rw [hm] at h
    by_cases hin : i < n
    · simp [hi, hin]
    · simp [hi, hin, h, BitVec.getLsbD_of_ge f i (by omega)]

/-- Base plus extended offset is the signed sum modulo 2^16 (R57, R78). -/
theorem isSum_add_sext16 {n : Nat} (h1 : 1 ≤ n) (h2 : n < 16) (x : Word) (f : BitVec n) :
    IsSum (x + sext16 f) x f.toInt := by
  have hs : (sext16 f).toInt = f.toInt := by
    rw [sext16_eq_signExtend h1 h2, BitVec.toInt_signExtend_of_le (by omega)]
  have : (sext16 f).toInt = (sext16 f).toNat ∨ (sext16 f).toInt = (sext16 f).toNat - 65536 := by
    rw [BitVec.toInt_eq_toNat_cond]
    split
    · exact .inl rfl
    · right; norm_num
  unfold IsSum
  rw [← hs, BitVec.toNat_add]
  push_cast
  omega

/-- A signed sum names one word. -/
theorem IsSum.unique {w w' x : Word} {d : Int} (h : IsSum w x d) (h' : IsSum w' x d) : w = w' := by
  unfold IsSum at *
  apply BitVec.eq_of_toNat_eq
  omega

theorem zext16_byte_toNat (b : Byte) : (zext16 b).toNat = b.toNat := by
  simp [zext16]; omega

theorem lowByte_toNat (w : Word) : (lowByte w).toNat = w.toNat % 256 := by simp [lowByte]

theorem wordOfBytes_toNat (hi lo : Byte) : (wordOfBytes hi lo).toNat = 256 * hi.toNat + lo.toNat := by
  unfold wordOfBytes
  rw [BitVec.toNat_append, ← Nat.shiftLeft_add_eq_or_of_lt lo.isLt, Nat.shiftLeft_eq]
  omega

/-- A word of a string puts at least one byte out. -/
theorem stringBytes_length_pos (k : StringKind) (w : Word) : 1 ≤ (stringBytes k w).length := by
  cases k
  · simp [stringBytes]
  · simp only [stringBytes]; split <;> simp

end Sys2Proof.Machine
end

