-- ==== Sys2Proof/Laws/Image.lean ====
section
/-! SUPPORT. What placing an image does to the memory (R50). -/

namespace Sys2Proof.Machine

/-- Placing keeps the canonical form. -/
theorem Memory.wf_place (bs : List Byte) (a : Nat) (m : Memory) (hm : m.wf) : Memory.wf (Memory.place bs a m) := by
  induction bs, a, m using Memory.place.induct with
  | case1 hi lo rest a m h ih => rw [Memory.place, if_pos h]; exact ih (Memory.wf_write hm _ _)
  | case2 hi lo rest a m h => rw [Memory.place, if_neg h]; exact hm
  | case3 bs a m h => rw [Memory.place]; exacts [hm, h]

/-- A word that a write past its address did not reach. -/
theorem Memory.read_place_of_lt (bs : List Byte) (o : Nat) (m : Memory) {a : Word} (h : a.toNat < o) :
    (Memory.place bs o m).read a = m.read a := by
  induction bs, o, m using Memory.place.induct with
  | case1 hi lo rest o m ho ih =>
    rw [Memory.place, if_pos ho, ih (by omega), Memory.read_write_ne]
    rintro rfl
    rw [BitVec.toNat_ofNat, Nat.mod_eq_of_lt ho] at h
    omega
  | case2 hi lo rest o m ho => rw [Memory.place, if_neg ho]
  | case3 bs o m hb => rw [Memory.place]; exact hb

end Sys2Proof.Machine
end

