-- ==== Sys2Proof/Laws/Ops.lean ====
section
/-! SUPPORT. For each shared operation, once, everything it can do: the poll, the reads, the fetch, the
key read, the string scan. -/

namespace Sys2Proof.Machine

/-! ### KbdPoll and Poll (R33, R34) -/

/-- The three things an input can be: a next byte, its end, a stall. -/
theorem Terminal.input_cases (t : Terminal) :
    (∃ b, t.nextKey = some b) ∨ (t.input = [] ∧ t.inputEnd = .eof) ∨ (t.input = [] ∧ t.inputEnd = .stall) := by
  obtain ⟨input, e, polls, drawn, out, fl⟩ := t
  rcases input with _ | ⟨b, bs⟩
  · rcases e with _ | _ | n <;> simp [Terminal.nextKey]
  · exact .inl ⟨b, rfl⟩

theorem Terminal.nextKey_eof {t : Terminal} (h : t.input = []) (he : t.inputEnd = .eof) : t.nextKey = none := by
  simp [Terminal.nextKey, h, he]

theorem Terminal.nextKey_stall {t : Terminal} (h : t.input = []) (he : t.inputEnd = .stall) : t.nextKey = none := by
  simp [Terminal.nextKey, h, he]

section DropKey
variable (t : Terminal)

@[simp] theorem Terminal.dropKey_polls : t.dropKey.polls = t.polls := by unfold Terminal.dropKey; split <;> rfl
@[simp] theorem Terminal.dropKey_drawn : t.dropKey.drawn = t.drawn := by unfold Terminal.dropKey; split <;> rfl
@[simp] theorem Terminal.dropKey_output : t.dropKey.output = t.output := by unfold Terminal.dropKey; split <;> rfl
@[simp] theorem Terminal.dropKey_flushed : t.dropKey.flushed = t.flushed := by unfold Terminal.dropKey; split <;> rfl

/-- Consuming a key and recording output do not touch each other. -/
@[simp] theorem Terminal.dropKey_withOutput (out : List Byte) (n : Nat) :
    Terminal.dropKey { t with output := out, flushed := n } = { t.dropKey with output := out, flushed := n } := by
  obtain ⟨input, e, polls, drawn, o, f⟩ := t
  rcases input with _ | ⟨b, bs⟩ <;> rcases e with _ | _ | k <;> rfl

@[simp] theorem Terminal.dropDraw_input : t.dropDraw.input = t.input := by unfold Terminal.dropDraw; split <;> rfl
@[simp] theorem Terminal.dropDraw_inputEnd : t.dropDraw.inputEnd = t.inputEnd := by unfold Terminal.dropDraw; split <;> rfl
@[simp] theorem Terminal.dropDraw_output : t.dropDraw.output = t.output := by unfold Terminal.dropDraw; split <;> rfl
@[simp] theorem Terminal.dropDraw_flushed : t.dropDraw.flushed = t.flushed := by unfold Terminal.dropDraw; split <;> rfl

end DropKey

/-! ### The input as a sequence (R28) -/

/-- The bytes of an input depend on its list and its end only. -/
theorem Terminal.Consumed.of_eq {t u : Terminal} (h : u.input = t.input) (he : u.inputEnd = t.inputEnd) :
    t.Consumed 0 u := by
  refine ⟨fun i => ?_, by rw [he], by rw [he]⟩
  simp [Terminal.byteAt, h, he]

theorem Terminal.Consumed.trans {t u v : Terminal} {m n : Nat} (h : t.Consumed m u) (k : u.Consumed n v) :
    t.Consumed (n + m) v :=
  ⟨fun i => by rw [k.1, h.1, Nat.add_assoc], k.2.1.trans h.2.1, k.2.2.trans h.2.2⟩

/-- Dropping the next key consumes one byte; at the end of the input there is none to consume. -/
theorem Terminal.consumed_dropKey (t : Terminal) : t.Consumed 1 t.dropKey := by
  obtain ⟨input, e, polls, drawn, out, fl⟩ := t
  rcases input with _ | ⟨b, bs⟩
  · rcases e with _ | _ | n
    · exact ⟨fun i => rfl, .rfl, .rfl⟩
    · exact ⟨fun i => rfl, .rfl, .rfl⟩
    · refine ⟨fun i => ?_, by simp [Terminal.dropKey], by simp [Terminal.dropKey]⟩
      simp [Terminal.dropKey, Terminal.byteAt, Nat.add_comm, Nat.add_left_comm]
  · refine ⟨fun i => ?_, .rfl, .rfl⟩
    simp [Terminal.dropKey, Terminal.byteAt]

/-- A poll takes the next input byte and answers it, or takes none. -/
theorem Terminal.kbdPoll_cases (t : Terminal) :
    (∃ b, t.keyPending = true ∧ t.nextKey = some b ∧ t.kbdPoll = (some b, t.dropDraw.dropKey)) ∨
    ((t.keyPending = false ∨ t.nextKey = none) ∧ t.kbdPoll = (none, t.dropDraw)) := by
  unfold Terminal.kbdPoll
  rcases t.nextKey with _ | b
  · exact .inr ⟨.inr rfl, rfl⟩
  · cases hp : t.keyPending
    · exact .inr ⟨.inl rfl, by simp⟩
    · exact .inl ⟨b, rfl, rfl, by simp⟩

@[simp] theorem Terminal.kbdPoll_output (t : Terminal) : t.kbdPoll.2.output = t.output := by
  rcases t.kbdPoll_cases with ⟨b, -, -, h⟩ | ⟨-, h⟩ <;> simp [h]
@[simp] theorem Terminal.kbdPoll_flushed (t : Terminal) : t.kbdPoll.2.flushed = t.flushed := by
  rcases t.kbdPoll_cases with ⟨b, -, -, h⟩ | ⟨-, h⟩ <;> simp [h]

theorem Terminal.consumed_dropDraw (t : Terminal) : t.Consumed 0 t.dropDraw := .of_eq (by simp) (by simp)

/-- A poll consumes one byte of the input, or none. -/
theorem Terminal.consumed_kbdPoll (t : Terminal) : ∃ n, t.Consumed n t.kbdPoll.2 := by
  rcases t.kbdPoll_cases with ⟨b, -, -, h⟩ | ⟨-, h⟩ <;> rw [h]
  · exact ⟨_, t.consumed_dropDraw.trans (Terminal.consumed_dropKey _)⟩
  · exact ⟨_, t.consumed_dropDraw⟩

/-- Poll() once the terminal has answered a byte (R33). -/
theorem State.poll_some {s : State} {b : Byte} {t : Terminal} (h : s.term.kbdPoll = (some b, t)) :
    s.poll = { s with term := t
                      mem := (s.mem.write s.cfg.kbsrAddr 0x8000).write s.cfg.kbdrAddr (zext16 b) } := by
  simp [State.poll, h, State.memWrite]

/-- Poll() once the terminal has answered none (R33). -/
theorem State.poll_none {s : State} {t : Terminal} (h : s.term.kbdPoll = (none, t)) :
    s.poll = { s with term := t, mem := s.mem.write s.cfg.kbsrAddr 0 } := by
  simp [State.poll, h, State.memWrite]

/-! ### What polls may change -/

/-- `t` is `s` after some keyboard polls: only the two keyboard words, the input and the draws may
differ. -/
structure State.Polled (s t : State) : Prop where
  cfg : t.cfg = s.cfg
  regs : t.regs = s.regs
  pc : t.pc = s.pc
  cond : t.cond = s.cond
  ir : t.ir = s.ir
  run : t.run = s.run
  activity : t.activity = s.activity
  output : t.term.output = s.term.output
  flushed : t.term.flushed = s.term.flushed
  input : ∃ n, s.term.Consumed n t.term
  memory : ∀ a, a ≠ s.cfg.kbsrAddr → a ≠ s.cfg.kbdrAddr → t.mem.read a = s.mem.read a
  wf : s.mem.wf → t.mem.wf

theorem State.Polled.refl (s : State) : s.Polled s :=
  ⟨rfl, rfl, rfl, rfl, rfl, rfl, rfl, rfl, rfl, ⟨0, .of_eq rfl rfl⟩, fun _ _ _ => rfl, id⟩

theorem State.Polled.trans {s t u : State} (h : s.Polled t) (k : t.Polled u) : s.Polled u where
  cfg := k.cfg.trans h.cfg
  regs := k.regs.trans h.regs
  pc := k.pc.trans h.pc
  cond := k.cond.trans h.cond
  ir := k.ir.trans h.ir
  run := k.run.trans h.run
  activity := k.activity.trans h.activity
  output := k.output.trans h.output
  flushed := k.flushed.trans h.flushed
  input := by
    obtain ⟨x, hx⟩ := h.input
    obtain ⟨y, hy⟩ := k.input
    exact ⟨_, hx.trans hy⟩
  memory a h1 h2 := (k.memory a (by rwa [h.cfg]) (by rwa [h.cfg])).trans (h.memory a h1 h2)
  wf := k.wf ∘ h.wf

theorem State.Polled.reg {s t : State} (h : s.Polled t) (i : RegIdx) : t.reg i = s.reg i :=
  State.reg_congr h.regs i

theorem State.polled_poll (s : State) : s.Polled s.poll := by
  have hu := s.term.consumed_kbdPoll
  have ho := s.term.kbdPoll_output
  have hf := s.term.kbdPoll_flushed
  rcases hk : s.term.kbdPoll with ⟨_ | b, t⟩
  · rw [State.poll_none hk]
    rw [hk] at hu ho hf
    exact ⟨rfl, rfl, rfl, rfl, rfl, rfl, rfl, ho, hf, hu,
      fun a h1 _ => Memory.read_write_ne s.mem 0 h1, fun h => show Memory.wf (s.mem.write s.cfg.kbsrAddr 0) from Memory.wf_write h _ _⟩
  · rw [State.poll_some hk]
    rw [hk] at hu ho hf
    exact ⟨rfl, rfl, rfl, rfl, rfl, rfl, rfl, ho, hf, hu,
      fun a h1 h2 => (Memory.read_write_ne _ _ h2).trans (Memory.read_write_ne _ _ h1),
      fun h => show Memory.wf ((s.mem.write _ _).write _ _) from Memory.wf_write (Memory.wf_write h _ _) _ _⟩

/-! ### The reads (R31, R32, R36) -/

/-- A MemRead away from KBSR_ADDR is a plain read. -/
theorem State.memRead_plain {s : State} {a : Word} (h : a ≠ s.cfg.kbsrAddr) :
    s.memRead a = (s.mem.read a, s) := by
  simp [State.memRead, State.memReadPlain, h]

/-- A MemRead of KBSR_ADDR reads after the poll. -/
theorem State.memRead_kbsr (s : State) :
    s.memRead s.cfg.kbsrAddr = (s.poll.mem.read s.cfg.kbsrAddr, s.poll) := by
  simp [State.memRead, State.memReadPlain]

theorem State.polled_memRead (s : State) (a : Word) : s.Polled (s.memRead a).2 := by
  by_cases h : a = s.cfg.kbsrAddr
  · subst h; rw [State.memRead_kbsr]; exact s.polled_poll
  · rw [State.memRead_plain h]; exact .refl s

/-- A MemRead answers what its address holds afterwards. -/
theorem State.memRead_fst (s : State) (a : Word) : (s.memRead a).1 = (s.memRead a).2.mem.read a := by
  unfold State.memRead; split <;> rfl

@[simp] theorem State.memRead_cfg (s : State) (a : Word) : (s.memRead a).2.cfg = s.cfg := (s.polled_memRead a).cfg
@[simp] theorem State.memRead_regs (s : State) (a : Word) : (s.memRead a).2.regs = s.regs := (s.polled_memRead a).regs
@[simp] theorem State.memRead_pc (s : State) (a : Word) : (s.memRead a).2.pc = s.pc := (s.polled_memRead a).pc
@[simp] theorem State.memRead_cond (s : State) (a : Word) : (s.memRead a).2.cond = s.cond := (s.polled_memRead a).cond
@[simp] theorem State.memRead_ir (s : State) (a : Word) : (s.memRead a).2.ir = s.ir := (s.polled_memRead a).ir
@[simp] theorem State.memRead_run (s : State) (a : Word) : (s.memRead a).2.run = s.run := (s.polled_memRead a).run
@[simp] theorem State.memRead_activity (s : State) (a : Word) : (s.memRead a).2.activity = s.activity :=
  (s.polled_memRead a).activity
@[simp] theorem State.memRead_reg (s : State) (a : Word) (i : RegIdx) : (s.memRead a).2.reg i = s.reg i :=
  (s.polled_memRead a).reg i

theorem State.polled_stringRead (s : State) (a : Word) : s.Polled (s.stringRead a).2 := by
  unfold State.stringRead
  split
  · exact s.polled_memRead a
  · exact .refl s

/-- With STRING_READ_POLLS = false a string read is a plain read (R36). -/
theorem State.stringRead_plain {s : State} (h : s.cfg.stringReadPolls = false) (a : Word) :
    s.stringRead a = (s.mem.read a, s) := by
  simp [State.stringRead, State.memReadPlain, h]

/-! ### The fetch (R63) -/

@[simp] theorem State.fetch_cfg (s : State) : s.fetch.cfg = s.cfg := s.memRead_cfg s.pc
@[simp] theorem State.fetch_regs (s : State) : s.fetch.regs = s.regs := s.memRead_regs s.pc
@[simp] theorem State.fetch_pc (s : State) : s.fetch.pc = s.pc + 1 := rfl
@[simp] theorem State.fetch_cond (s : State) : s.fetch.cond = s.cond := s.memRead_cond s.pc
@[simp] theorem State.fetch_ir (s : State) : s.fetch.ir = (s.memRead s.pc).1 := rfl
@[simp] theorem State.fetch_mem (s : State) : s.fetch.mem = (s.memRead s.pc).2.mem := rfl
@[simp] theorem State.fetch_run (s : State) : s.fetch.run = s.run := s.memRead_run s.pc
@[simp] theorem State.fetch_activity (s : State) : s.fetch.activity = s.activity := s.memRead_activity s.pc
@[simp] theorem State.fetch_term (s : State) : s.fetch.term = (s.memRead s.pc).2.term := rfl
@[simp] theorem State.fetch_reg (s : State) (i : RegIdx) : s.fetch.reg i = s.reg i := s.memRead_reg s.pc i

/-! ### KbdRead and the rest of GETC and IN (R86, R89, R92) -/

theorem Terminal.kbdRead_byte {t : Terminal} {b : Byte} (h : t.nextKey = some b) :
    t.kbdRead = (.byte b, t.dropKey) := by
  unfold Terminal.nextKey at h
  unfold Terminal.kbdRead
  split at h <;> simp_all

theorem State.getcRead_byte {s : State} {b : Byte} (h : s.term.nextKey = some b) :
    s.getcRead = ({ s with term := s.term.dropKey }).finishKey (zext16 b) := by
  simp [State.getcRead, Terminal.kbdRead_byte h]

theorem State.getcRead_eof {s : State} (h : s.term.input = []) (he : s.term.inputEnd = .eof) :
    s.getcRead = s.finishKey s.cfg.eofSentinel := by
  simp [State.getcRead, Terminal.kbdRead, h, he]

theorem State.getcRead_stall {s : State} (h : s.term.input = []) (he : s.term.inputEnd = .stall) :
    s.getcRead = { s with activity := .wait .getc } := by
  simp [State.getcRead, Terminal.kbdRead, h, he]

theorem State.inRead_byte {s : State} {b : Byte} (h : s.term.nextKey = some b) :
    s.inRead = ((({ s with term := s.term.dropKey } : State).ttyWrite [b]).ttyFlush).finishKey
      (extendKey s.cfg.inExtend b) := by
  simp [State.inRead, Terminal.kbdRead_byte h]

theorem State.inRead_eof {s : State} (h : s.term.input = []) (he : s.term.inputEnd = .eof) :
    s.inRead = s.ttyFlush.finishKey s.cfg.eofSentinel := by
  simp [State.inRead, Terminal.kbdRead, h, he]

theorem State.inRead_stall {s : State} (h : s.term.input = []) (he : s.term.inputEnd = .stall) :
    s.inRead = { s with activity := .wait .inKey } := by
  simp [State.inRead, Terminal.kbdRead, h, he]

/-! ### What a trap routine may change -/

/-- `t` is `s` after work of a trap routine's reads and writes: registers and COND aside, only the two
keyboard words, RUN, the activity and the terminal may differ, and the terminal only by consuming input
from its front and by appending output. -/
structure State.Served (s t : State) : Prop where
  cfg : t.cfg = s.cfg
  pc : t.pc = s.pc
  ir : t.ir = s.ir
  output : ∃ new, t.term.output = s.term.output ++ new
  input : ∃ n, s.term.Consumed n t.term
  memory : ∀ a, a ≠ s.cfg.kbsrAddr → a ≠ s.cfg.kbdrAddr → t.mem.read a = s.mem.read a
  wf : s.mem.wf → t.mem.wf

theorem State.Served.refl (s : State) : s.Served s :=
  ⟨rfl, rfl, rfl, ⟨[], by simp⟩, ⟨0, .of_eq rfl rfl⟩, fun _ _ _ => rfl, id⟩

theorem State.Served.trans {s t u : State} (h : s.Served t) (k : t.Served u) : s.Served u where
  cfg := k.cfg.trans h.cfg
  pc := k.pc.trans h.pc
  ir := k.ir.trans h.ir
  output := by
    obtain ⟨x, hx⟩ := h.output
    obtain ⟨y, hy⟩ := k.output
    exact ⟨x ++ y, by rw [hy, hx, List.append_assoc]⟩
  input := by
    obtain ⟨x, hx⟩ := h.input
    obtain ⟨y, hy⟩ := k.input
    exact ⟨_, hx.trans hy⟩
  memory a h1 h2 := (k.memory a (by rwa [h.cfg]) (by rwa [h.cfg])).trans (h.memory a h1 h2)
  wf := k.wf ∘ h.wf

theorem State.Polled.served {s t : State} (h : s.Polled t) : s.Served t :=
  ⟨h.cfg, h.pc, h.ir, ⟨[], by simp [h.output]⟩, h.input, h.memory, h.wf⟩

/-- An update of registers, COND, RUN, activity and the flush count only. -/
theorem State.Served.of_eq {s t : State} (hc : t.cfg = s.cfg) (hp : t.pc = s.pc) (hi : t.ir = s.ir)
    (hm : t.mem = s.mem) (ho : t.term.output = s.term.output) (he : t.term.inputEnd = s.term.inputEnd)
    (hin : t.term.input = s.term.input) : s.Served t :=
  ⟨hc, hp, hi, ⟨[], by simp [ho]⟩, ⟨0, .of_eq hin he⟩, fun a _ _ => by rw [hm], fun h => hm ▸ h⟩

theorem State.served_link (s : State) : s.Served s.link := .of_eq rfl rfl rfl rfl rfl rfl rfl
theorem State.served_ttyFlush (s : State) : s.Served s.ttyFlush := .of_eq rfl rfl rfl rfl rfl rfl rfl
theorem State.served_halt (s : State) : s.Served s.halt := .of_eq rfl rfl rfl rfl rfl rfl rfl
theorem State.served_abort (s : State) (c : AbortCause) : s.Served (s.abort c) := .of_eq rfl rfl rfl rfl rfl rfl rfl
theorem State.served_finishKey (s : State) (v : Word) : s.Served (s.finishKey v) := .of_eq rfl rfl rfl rfl rfl rfl rfl
theorem State.served_activity (s : State) (a : Activity) : s.Served { s with activity := a } :=
  .of_eq rfl rfl rfl rfl rfl rfl rfl

theorem State.served_ttyWrite (s : State) (bs : List Byte) : s.Served (s.ttyWrite bs) :=
  ⟨rfl, rfl, rfl, ⟨bs, rfl⟩, ⟨0, .of_eq rfl rfl⟩, fun _ _ _ => rfl, id⟩

theorem State.served_dropKey (s : State) : s.Served { s with term := s.term.dropKey } :=
  ⟨rfl, rfl, rfl, ⟨[], by simp⟩, ⟨1, s.term.consumed_dropKey⟩, fun _ _ _ => rfl, id⟩

theorem State.served_getcRead (s : State) : s.Served s.getcRead := by
  rcases s.term.input_cases with ⟨b, h⟩ | ⟨h, he⟩ | ⟨h, he⟩
  · rw [State.getcRead_byte h]; exact s.served_dropKey.trans (State.served_finishKey _ _)
  · rw [State.getcRead_eof h he]; exact s.served_finishKey _
  · rw [State.getcRead_stall h he]; exact s.served_activity _

theorem State.served_inRead (s : State) : s.Served s.inRead := by
  rcases s.term.input_cases with ⟨b, h⟩ | ⟨h, he⟩ | ⟨h, he⟩
  · rw [State.inRead_byte h]
    exact ((s.served_dropKey.trans (State.served_ttyWrite _ _)).trans (State.served_ttyFlush _)).trans
      (State.served_finishKey _ _)
  · rw [State.inRead_eof h he]; exact s.served_ttyFlush.trans (State.served_finishKey _ _)
  · rw [State.inRead_stall h he]; exact s.served_activity _

/-! ### The string scan (R91, R93, R96) -/

theorem State.scanFrom_zero (k : StringKind) (a : Word) (s : State) :
    s.scanFrom k 0 a = { s with activity := .scan k a } := rfl

theorem State.scanFrom_stop {k : StringKind} {n : Nat} {a : Word} {s : State} (h : (s.stringRead a).1 = 0) :
    s.scanFrom k (n + 1) a = { (s.stringRead a).2.ttyFlush with activity := .idle } := by
  simp [State.scanFrom, h]

theorem State.scanFrom_more {k : StringKind} {n : Nat} {a : Word} {s : State} (h : (s.stringRead a).1 ≠ 0) :
    s.scanFrom k (n + 1) a =
      ((s.stringRead a).2.ttyWrite (stringBytes k (s.stringRead a).1)).scanFrom k n (a + 1) := by
  rw [State.scanFrom, if_neg h]

/-- What a scan keeps, and how it can end: out of the routine with everything flushed, or still in it. -/
structure State.Scanned (k : StringKind) (s t : State) : Prop where
  served : s.Served t
  regs : t.regs = s.regs
  cond : t.cond = s.cond
  run : t.run = s.run
  outcome : (t.activity = .idle ∧ t.term.flushed = t.term.output.length) ∨
    (∃ a, t.activity = .scan k a) ∧ t.term.flushed = s.term.flushed

theorem State.scanned_scanFrom (k : StringKind) (n : Nat) (a : Word) (s : State) :
    State.Scanned k s (s.scanFrom k n a) := by
  induction n generalizing a s with
  | zero => exact ⟨s.served_activity _, rfl, rfl, rfl, .inr ⟨⟨a, rfl⟩, rfl⟩⟩
  | succ n ih =>
    have hp := s.polled_stringRead a
    by_cases h : (s.stringRead a).1 = 0
    · rw [State.scanFrom_stop h]
      exact ⟨(hp.served.trans (State.served_ttyFlush _)).trans (State.served_activity _ _), hp.regs, hp.cond, hp.run,
        .inl ⟨rfl, rfl⟩⟩
    · rw [State.scanFrom_more h]
      have ih := ih (a + 1) ((s.stringRead a).2.ttyWrite (stringBytes k (s.stringRead a).1))
      refine ⟨(hp.served.trans (State.served_ttyWrite _ _)).trans ih.served, ih.regs.trans hp.regs,
        ih.cond.trans hp.cond, ih.run.trans hp.run, ih.outcome.imp id fun h => ⟨h.1, h.2.trans hp.flushed⟩⟩

/-- The scan is the loop of R91 and R93: where the loop ends within the fuel, the scan flushes and is done. -/
theorem State.scanFrom_of_loop {k : StringKind} {n m : Nat} {a : Word} {s u : State}
    (h : StringLoop k n a s u) (hm : n ≤ m) : s.scanFrom k m a = { u.ttyFlush with activity := .idle } := by
  induction h generalizing m with
  | stop h =>
    obtain ⟨m, rfl⟩ : ∃ j, m = j + 1 := ⟨m - 1, by omega⟩
    exact State.scanFrom_stop h
  | more h _ ih =>
    obtain ⟨m, rfl⟩ : ∃ j, m = j + 1 := ⟨m - 1, by omega⟩
    rw [State.scanFrom_more h]
    exact ih (by omega)

/-- A scan of plain reads over words that are not zero writes their bytes and is still in the routine. -/
theorem State.scanFrom_nonzero {k : StringKind} {n : Nat} {a : Word} {s : State}
    (hp : s.cfg.stringReadPolls = false) (h : ∀ w ∈ s.mem.words n a, w ≠ 0) :
    s.scanFrom k n a =
      { s.ttyWrite ((s.mem.words n a).flatMap (stringBytes k)) with activity := .scan k (a + BitVec.ofNat 16 n) } := by
  induction n generalizing a s with
  | zero => simp [State.scanFrom_zero, Memory.words, State.ttyWrite]
  | succ n ih =>
    have hr := State.stringRead_plain hp a
    have h0 : s.mem.read a ≠ 0 := h _ (by simp [Memory.words])
    rw [State.scanFrom_more (by rw [hr]; exact h0), hr]
    rw [ih (by simpa using hp) fun w hw => h w (by simp [Memory.words] at hw ⊢; exact .inr hw)]
    have : a + 1 + BitVec.ofNat 16 n = a + BitVec.ofNat 16 (n + 1) := by
      apply BitVec.eq_of_toNat_eq
      simp [BitVec.toNat_add]; omega
    rw [this]
    simp [State.ttyWrite, Memory.words]

/-- Plain reads over words that are not zero, up to a zero word, are a run of the loop of R91 and R93. -/
theorem StringLoop.of_words {k : StringKind} {n : Nat} {a : Word} {s : State} (hp : s.cfg.stringReadPolls = false)
    (hw : ∀ w ∈ s.mem.words n a, w ≠ 0) (h0 : s.mem.read (a + BitVec.ofNat 16 n) = 0) :
    StringLoop k (n + 1) a s (s.ttyWrite ((s.mem.words n a).flatMap (stringBytes k))) := by
  induction n generalizing a s with
  | zero =>
    have hr := State.stringRead_plain hp a
    have h := StringLoop.stop (k := k) (a := a) (s := s) (by rw [hr]; simpa using h0)
    rw [hr] at h
    simpa [Memory.words, State.ttyWrite] using h
  | succ n ih =>
    have hr := State.stringRead_plain hp a
    have ha : a + 1 + BitVec.ofNat 16 n = a + BitVec.ofNat 16 (n + 1) := by
      apply BitVec.eq_of_toNat_eq
      simp [BitVec.toNat_add]; omega
    have := ih (a := a + 1) (s := s.ttyWrite (stringBytes k (s.mem.read a))) hp
      (fun w h => hw w (List.mem_cons_of_mem _ h)) (by rw [ha]; exact h0)
    refine .more (by rw [hr]; exact hw _ (List.mem_cons_self ..)) ?_
    rw [hr]
    simpa [Memory.words, State.ttyWrite] using this

/-- In a memory without a zero word every scanned word is not zero. -/
theorem Memory.words_ne_zero {m : Memory} (h : ∀ a, m.read a ≠ 0) (n : Nat) (a : Word) : ∀ w ∈ m.words n a, w ≠ 0 := by
  induction n generalizing a with
  | zero => simp [Memory.words]
  | succ n ih =>
    intro w hw
    rcases List.mem_cons.1 hw with rfl | hw
    · exact h a
    · exact ih _ _ hw

@[simp] theorem Memory.words_length (m : Memory) (n : Nat) (a : Word) : (m.words n a).length = n := by
  induction n generalizing a with
  | zero => rfl
  | succ n ih => simp [Memory.words, ih]

theorem length_le_flatMap_stringBytes (k : StringKind) (l : List Word) : l.length ≤ (l.flatMap (stringBytes k)).length := by
  induction l with
  | nil => simp
  | cons w l ih =>
    have := stringBytes_length_pos k w
    simp only [List.flatMap_cons, List.length_append, List.length_cons]
    omega

end Sys2Proof.Machine
end

