-- ==== Sys2Proof/Laws/PerInstr.lean ====
section
/-! SUPPORT. Statements about instructions as syntax, one lemma per constructor. -/

/-- Decoding the word of a well-formed instruction gives it back. -/
def Sys2Proof.Laws.RoundTrip.Statement (i : Sys2Proof.Instr) : Prop :=
  i.wf = true → Sys2Proof.decode (Sys2Proof.encode i) = i

namespace Sys2Proof.Laws.RoundTrip

theorem addReg (dr sr1 sr2 : RegIdx) : Statement (.addReg dr sr1 sr2) := fun _ => by
  simp [encode, encodeOpr_eq, decode, opr_low]
theorem addImm (dr sr1 : RegIdx) (imm5 : BitVec 5) : Statement (.addImm dr sr1 imm5) := fun _ => by
  simp [encode, encodeOpi_eq, decode, opi_low]
theorem andReg (dr sr1 sr2 : RegIdx) : Statement (.andReg dr sr1 sr2) := fun _ => by
  simp [encode, encodeOpr_eq, decode, opr_low]
theorem andImm (dr sr1 : RegIdx) (imm5 : BitVec 5) : Statement (.andImm dr sr1 imm5) := fun _ => by
  simp [encode, encodeOpi_eq, decode, opi_low]
theorem not (dr sr : RegIdx) : Statement (.not dr sr) := fun _ => by
  simp [encode, decode]
theorem br (nzp : BitVec 3) (off9 : BitVec 9) : Statement (.br nzp off9) := fun _ => by
  simp [encode, decode]
theorem jmp (baseR : RegIdx) : Statement (.jmp baseR) := fun _ => by
  simp [encode, decode]
theorem jsr (off11 : BitVec 11) : Statement (.jsr off11) := fun _ => by
  simp [decode]
theorem jsrr (baseR : RegIdx) : Statement (.jsrr baseR) := fun _ => by
  simp [decode]
theorem ld (dr : RegIdx) (off9 : BitVec 9) : Statement (.ld dr off9) := fun _ => by
  simp [encode, decode]
theorem ldi (dr : RegIdx) (off9 : BitVec 9) : Statement (.ldi dr off9) := fun _ => by
  simp [encode, decode]
theorem ldr (dr baseR : RegIdx) (off6 : BitVec 6) : Statement (.ldr dr baseR off6) := fun _ => by
  simp [encode, decode]
theorem lea (dr : RegIdx) (off9 : BitVec 9) : Statement (.lea dr off9) := fun _ => by
  simp [encode, decode]
theorem st (sr : RegIdx) (off9 : BitVec 9) : Statement (.st sr off9) := fun _ => by
  simp [encode, decode]
theorem sti (sr : RegIdx) (off9 : BitVec 9) : Statement (.sti sr off9) := fun _ => by
  simp [encode, decode]
theorem str (sr baseR : RegIdx) (off6 : BitVec 6) : Statement (.str sr baseR off6) := fun _ => by
  simp [encode, decode]
theorem trap (vect8 : Byte) : Statement (.trap vect8) := fun h => by
  simp [encode, decode, trapOf_of_undefined (by simpa [Instr.wf] using h : definedVector vect8 = false)]
theorem trapGetc : Statement .trapGetc := fun _ => by
  simp [encode, decode, trapOf]
theorem trapOut : Statement .trapOut := fun _ => by
  simp [encode, decode, trapOf]
theorem trapPuts : Statement .trapPuts := fun _ => by
  simp [encode, decode, trapOf]
theorem trapIn : Statement .trapIn := fun _ => by
  simp [encode, decode, trapOf]
theorem trapPutsp : Statement .trapPutsp := fun _ => by
  simp [encode, decode, trapOf]
theorem trapHalt : Statement .trapHalt := fun _ => by
  simp [encode, decode, trapOf]
theorem rti : Statement .rti := fun _ => by decide
theorem res : Statement .res := fun _ => by decide

end Sys2Proof.Laws.RoundTrip
end

