-- ==== Sys2Proof/Laws/Step.lean ====
section
/-! SUPPORT. Everything one step can do, once; runs of steps. -/

namespace Sys2Proof.Machine

/-- A step stays put, goes on with a routine, or executes the fetched instruction. -/
theorem step_cases {s t : State} (h : step s = .next t) :
    (s.stopped ∧ t = s) ∨
    (s.run = .running ∧ s.activity ≠ .idle ∧ t = s.resume) ∨
    (s.run = .running ∧ s.activity = .idle ∧ exec s.fetch.current s.fetch = .next t) := by
  unfold step at h
  split at h
  case h_1 hr ha => exact .inr (.inr ⟨hr, ha, h⟩)
  case h_2 hr ha => exact .inr (.inl ⟨hr, fun e => ha e, by simpa using h.symm⟩)
  case h_3 hr => exact .inl ⟨fun e => by simp_all, by simpa using h.symm⟩

theorem step_stopped {s : State} (h : s.stopped) : step s = .next s := by
  unfold step
  split <;> first | rfl | exact absurd ‹s.run = .running› h

theorem step_running {s : State} (hr : s.run = .running) (ha : s.activity = .idle) :
    step s = exec s.fetch.current s.fetch := by
  simp [step, hr, ha]

theorem step_resume {s : State} (hr : s.run = .running) (ha : s.activity ≠ .idle) :
    step s = .next s.resume := by
  unfold step
  split
  · exact absurd ‹s.activity = .idle› ha
  · rfl
  · exact absurd hr (by simp_all)

/-- What resuming can do, by what the engine is inside of. -/
theorem State.resume_cases (s : State) :
    (s.activity = .idle ∧ s.resume = s) ∨
    (∃ k a, s.activity = .scan k a ∧ s.resume = s.scanFrom k scanReads a) ∨
    (s.activity = .wait .getc ∧ s.resume = s.getcRead) ∨
    (s.activity = .wait .inKey ∧ s.resume = s.inRead) := by
  rcases h : s.activity with _ | ⟨k, a⟩ | ⟨_ | _⟩
  · exact .inl ⟨rfl, by simp [State.resume, h]⟩
  · exact .inr (.inl ⟨k, a, rfl, by simp [State.resume, h]⟩)
  · exact .inr (.inr (.inl ⟨rfl, by simp [State.resume, h]⟩))
  · exact .inr (.inr (.inr ⟨rfl, by simp [State.resume, h]⟩))

/-- Resuming keeps what a trap routine keeps. -/
theorem State.served_resume (s : State) : s.Served s.resume := by
  rcases s.resume_cases with ⟨-, h⟩ | ⟨k, a, -, h⟩ | ⟨-, h⟩ | ⟨-, h⟩ <;> rw [h]
  · exact .refl s
  · exact (State.scanned_scanFrom _ _ _ _).served
  · exact s.served_getcRead
  · exact s.served_inRead

/-! ### Runs -/

theorem Steps.trans {m n : Nat} {s t u : State} (h : Steps m s t) (k : Steps n t u) : Steps (m + n) s u := by
  induction h with
  | zero => simpa using k
  | succ hs _ ih => rw [Nat.add_right_comm]; exact .succ hs (ih k)

/-- An invariant of one step is an invariant of a run. -/
theorem Steps.invariant {P : State → Prop} (hP : ∀ s t, P s → step s = .next t → P t) {n : Nat} {s t : State}
    (h : Steps n s t) (hs : P s) : P t := by
  induction h with
  | zero => exact hs
  | succ hstep _ ih => exact ih (hP _ _ hs hstep)

/-- A function of the state that no step changes keeps its value along a run. -/
theorem Steps.constant {α : Type} (f : State → α) (hf : ∀ s t, step s = .next t → f t = f s) {n : Nat}
    {s t : State} (h : Steps n s t) : f t = f s := by
  induction h with
  | zero => rfl
  | succ hstep _ ih => exact ih.trans (hf _ _ hstep)

end Sys2Proof.Machine
end

