-- ==== Sys2Proof/Tests/Slice0.lean ====
section
/-! SUPPORT. Tests of the model against the spec's own words and vectors (spec/95_test_vectors.md; the id of
a vector stands before each), and for every statement with hypotheses a witness that meets them. -/

namespace Sys2Proof.Tests

open Sys2Proof Sys2Proof.Machine

/-- The reset state with a program counter, some registers and some memory words. -/
def start (pc : Word) (regs : List (RegIdx × Word)) (cells : List (Word × Word)) : State :=
  let s := cells.foldl (fun s c => s.memWrite c.1 c.2) State.reset
  { regs.foldl (fun s r => s.setReg r.1 r.2) s with pc := pc }

/-- The same state with another terminal. -/
def typed (s : State) (input : List Byte) (e : InputEnd) (polls : List Bool) : State :=
  { s with term := Terminal.ofInput input e polls }

/-- The state one step later. -/
def after (s : State) : State :=
  match step s with
  | .next t => t
  | .fault _ | .refused _ => s

/-! ### Well-formedness: the one check, and a term it refuses at each end of its range -/

theorem test_wf_refuses_a_defined_vector :
    (Instr.trap 0x20).wf = false ∧ (Instr.trap 0x25).wf = false := by decide

theorem test_wf_accepts_an_undefined_vector :
    (Instr.trap 0x00).wf = true ∧ (Instr.trap 0x1F).wf = true ∧ (Instr.trap 0x26).wf = true ∧
      (Instr.trap 0xFF).wf = true := by decide

/-! ### Decoding: words written out field by field from R55 and R59 -/

/-- OPR and OPI of R55, opcodes 0001 and 0101. -/
theorem test_decode_operate :
    decode (0b0001#4 ++ 2#3 ++ 0#3 ++ 0#1 ++ 0b00#2 ++ 1#3) = .addReg 2 0 1 ∧
    decode (0b0001#4 ++ 0#3 ++ 0#3 ++ 1#1 ++ 0b10000#5) = .addImm 0 0 0x10 ∧
    decode (0b0101#4 ++ 3#3 ++ 1#3 ++ 0#1 ++ 0b11#2 ++ 2#3) = .andReg 3 1 2 ∧
    decode (0b0101#4 ++ 0#3 ++ 7#3 ++ 1#1 ++ 0b01111#5) = .andImm 0 7 15 ∧
    decode (0b1001#4 ++ 4#3 ++ 5#3 ++ 0b111111#6) = .not 4 5 ∧
    decode (0b1001#4 ++ 0#3 ++ 0#3 ++ 0b000000#6) = .not 0 0 := by decide

/-- BR, JMP, JSR and JSRR of R55; the examples of R74 to R77. -/
theorem test_decode_control :
    decode (0b0000#4 ++ 0b010#3 ++ 0x1FD#9) = .br 0b010 0x1FD ∧
    decode (0b0000#4 ++ 0b100#3 ++ 0x002#9) = .br 0b100 2 ∧
    decode (0b1100#4 ++ 0b000#3 ++ 2#3 ++ 0#6) = .jmp 2 ∧
    decode (0b0100#4 ++ 1#1 ++ 0x400#11) = .jsr 0x400 ∧
    decode (0b0100#4 ++ 0#1 ++ 0b11#2 ++ 3#3 ++ 0b111111#6) = .jsrr 3 := by decide

/-- PCREL and BASE of R55; the examples of R79 to R85. -/
theorem test_decode_memory :
    decode (0b0010#4 ++ 1#3 ++ 0x002#9) = .ld 1 2 ∧
    decode (0b1010#4 ++ 2#3 ++ 0x005#9) = .ldi 2 5 ∧
    decode (0b0110#4 ++ 4#3 ++ 2#3 ++ 0b111111#6) = .ldr 4 2 0x3F ∧
    decode (0b1110#4 ++ 0#3 ++ 0x001#9) = .lea 0 1 ∧
    decode (0b0011#4 ++ 0#3 ++ 0x001#9) = .st 0 1 ∧
    decode (0b1011#4 ++ 1#3 ++ 0x1FE#9) = .sti 1 0x1FE ∧
    decode (0b0111#4 ++ 2#3 ++ 3#3 ++ 0b000010#6) = .str 2 3 2 := by decide

/-- TRAP of R55 with the six vectors of R60, an ignored nibble, and vectors beside the six. -/
theorem test_decode_trap :
    decode (0b1111#4 ++ 0b0011#4 ++ 0x20#8) = .trapGetc ∧ decode (0b1111#4 ++ 0#4 ++ 0x21#8) = .trapOut ∧
    decode (0b1111#4 ++ 0#4 ++ 0x22#8) = .trapPuts ∧ decode (0b1111#4 ++ 0#4 ++ 0x23#8) = .trapIn ∧
    decode (0b1111#4 ++ 0#4 ++ 0x24#8) = .trapPutsp ∧ decode (0b1111#4 ++ 0#4 ++ 0x25#8) = .trapHalt ∧
    decode (0b1111#4 ++ 0#4 ++ 0x1F#8) = .trap 0x1F ∧ decode (0b1111#4 ++ 0#4 ++ 0x26#8) = .trap 0x26 := by decide

/-- R97 and R98: "Every word `0x8000`..`0x8FFF` is RTI", every word 0xD000..0xDFFF RES. -/
theorem test_decode_reserved :
    decode (0b1000#4 ++ 0x000#12) = .rti ∧ decode (0b1000#4 ++ 0xFFF#12) = .rti ∧
    decode (0b1101#4 ++ 0x000#12) = .res ∧ decode (0b1101#4 ++ 0xEAD#12) = .res := by decide

/-- The words of R66 and of R68 to R85, from the encoder. -/
theorem test_encode_words :
    encode (.jmp 7) = 0xC1C0 ∧ encode (.br 0 0) = 0x0000 ∧ encode .trapHalt = 0xF025 ∧
    encode (.addReg 2 0 1) = 0x1401 ∧ encode (.addImm 0 0 0x10) = 0x1030 ∧ encode (.not 4 5) = 0x997F ∧
    encode (.jsr 0x400) = 0x4C00 ∧ encode (.jsrr 3) = 0x40C0 ∧ encode (.ldr 4 2 0x3F) = 0x68BF ∧
    encode (.sti 1 0x1FE) = 0xB3FE ∧ encode .res = 0xD000 := by decide

/-- The bytes of an image word, big-endian (R40), and a stream too short for a word. -/
theorem test_decode_bytes :
    decodeTableWord 16 0xE001 = some (.lea 0 1) ∧ decodeTableWord 16 0x4803 = some (.jsr 3) ∧
    (match decodeBytes [0xF0] with | .error .truncated => true | .ok _ => false) = true := by decide

/-! ### S1: sign extension -/

theorem test_sext16 :
    sext16 0b01111#5 = 0x000F ∧ sext16 0b10000#5 = 0xFFF0 ∧ sext16 0b100000#6 = 0xFFE0 ∧
    sext16 0x0FF#9 = 0x00FF ∧ sext16 0x100#9 = 0xFF00 ∧ sext16 0x400#11 = 0xFC00 ∧
    sext16 0x7FF#11 = 0xFFFF := by decide

/-! ### Operate -/

/-- V-ADD-1, V-ADD-2. -/
theorem test_addReg :
    (let t := after (start 0x3000 [(0, 0x7FFF), (1, 1)] [(0x3000, 0x1401)]);
      t.reg 2 = 0x8000 ∧ t.cond = .n ∧ t.pc = 0x3001) ∧
    (after (start 0x3000 [(1, 0x4000)] [(0x3000, 0x1241)])).reg 1 = 0x8000 := by decide

/-- V-ADD-3, V-ADD-5. -/
theorem test_addImm :
    (let t := after (start 0x3000 [(2, 0xFFFF)] [(0x3000, 0x14A1)]); t.reg 2 = 0 ∧ t.cond = .z) ∧
    (after (start 0x3000 [(0, 0x0010)] [(0x3000, 0x1030)])).reg 0 = 0 := by decide

/-- V-AND-1, V-AND-2. -/
theorem test_andReg :
    (let t := after (start 0x3000 [(1, 0xF0F0), (2, 0x3C3C)] [(0x3000, 0x5642)]); t.reg 3 = 0x3030 ∧ t.cond = .p) ∧
    (let t := after (start 0x3000 [(1, 0xFF00), (2, 0x8F0F)] [(0x3000, 0x5642)]);
      t.reg 3 = 0x8F00 ∧ t.cond = .n) := by decide

/-- V-AND-5, V-AND-6. -/
theorem test_andImm :
    (after (start 0x3000 [(0, 0x1234)] [(0x3000, 0x5030)])).reg 0 = 0x1230 ∧
    (let t := after (start 0x3000 [(0, 0x8005)] [(0x3000, 0x502F)]); t.reg 0 = 5 ∧ t.cond = .p) := by decide

/-- V-NOT-2, V-NOT-4. -/
theorem test_not :
    (let t := after (start 0x3000 [(0, 0x8000)] [(0x3000, 0x903F)]); t.reg 0 = 0x7FFF ∧ t.cond = .p) ∧
    (let t := after (start 0x3000 [(1, 0xFFFF)] [(0x3000, 0x927F)]); t.reg 1 = 0 ∧ t.cond = .z) := by decide

/-! ### Control -/

/-- V-BR-3 (taken on Z, backwards), V-BR-4 (not taken). -/
theorem test_br :
    (after (start 0x3005 [] [(0x3005, 0x05FD)])).pc = 0x3003 ∧
    (after (start 0x3000 [] [(0x3000, 0x0A05)])).pc = 0x3001 := by decide

/-- V-BR-7: taken on P, the target wraps. -/
theorem test_br_wraps : (after { start 0xFFFE [] [(0xFFFE, 0x0E05)] with cond := .p }).pc = 0x0004 := by decide

/-- V-JMP-2. -/
theorem test_jmp : (after (start 0x3000 [(7, 0x3100)] [(0x3000, 0xC1C0)])).pc = 0x3100 := by decide

/-- V-JSR-2, V-JSR-3. -/
theorem test_jsr :
    (let t := after (start 0x3400 [] [(0x3400, 0x4C00)]); t.reg 7 = 0x3401 ∧ t.pc = 0x3001) ∧
    (let t := after (start 0xFFFF [] [(0xFFFF, 0x4801)]); t.reg 7 = 0x0000 ∧ t.pc = 0x0001) := by decide

/-- V-JSRR-1, V-JSRR-2. -/
theorem test_jsrr :
    (let t := after (start 0x3010 [(3, 0x5000)] [(0x3010, 0x40C0)]); t.reg 7 = 0x3011 ∧ t.pc = 0x5000) ∧
    (let t := after (start 0x3010 [(7, 0x5000)] [(0x3010, 0x41C0)]); t.reg 7 = 0x3011 ∧ t.pc = 0x3011) := by decide

/-! ### Loads, stores, LEA -/

/-- V-LD-2: the address wraps to 0xFFFF. -/
theorem test_ld :
    (let t := after (start 0x0000 [] [(0x0000, 0x21FE), (0xFFFF, 0xABCD)]); t.reg 0 = 0xABCD ∧ t.cond = .n) := by decide

/-- V-LDI-1. -/
theorem test_ldi :
    (let t := after (start 0x3001 [] [(0x3001, 0xA405), (0x3007, 0x3009), (0x3009, 0x8001)]);
      t.reg 2 = 0x8001 ∧ t.cond = .n) := by decide

/-- V-KB-2: the datum read polls, finds a key, and consumes it. -/
theorem test_ldi_polls :
    (let t := after (typed (start 0x3000 [] [(0x3000, 0xA003), (0x3004, 0xFE00), (0xFE02, 0x0055)])
        [0x61] .eof [true]);
      t.reg 0 = 0x8000 ∧ t.cond = .n ∧ t.mem.read 0xFE00 = 0x8000 ∧ t.mem.read 0xFE02 = 0x0061 ∧
        t.term.input = []) := by decide

/-- V-LDR-2 (base and destination the same register), V-KB-4 (KBDR does not poll). -/
theorem test_ldr :
    (let t := after (start 0x3000 [(1, 0x4000)] [(0x3000, 0x6240), (0x4000, 0x1234)]); t.reg 1 = 0x1234 ∧ t.cond = .p) ∧
    (let t := after (start 0x3000 [(1, 0xFE02)] [(0x3000, 0x6040), (0xFE02, 0x0061), (0xFE00, 0x8000)]);
      t.reg 0 = 0x0061 ∧ t.mem.read 0xFE00 = 0x8000) := by decide

/-- V-LEA-2, V-LEA-3. -/
theorem test_lea :
    (let t := after (start 0x8000 [] [(0x8000, 0xE200)]); t.reg 1 = 0x8001 ∧ t.cond = .n) ∧
    (let t := after (start 0xFFFF [(0, 0x1111)] [(0xFFFF, 0xE000)]); t.reg 0 = 0 ∧ t.cond = .z ∧ t.pc = 0) := by decide

/-- V-ST-1. -/
theorem test_st :
    (let t := after (start 0x3006 [(0, 0x000F)] [(0x3006, 0x3001)]); t.mem.read 0x3008 = 0x000F ∧ t.cond = .z) := by decide

/-- V-STI-1, V-STI-2 (a plain write to KBSR, no poll). -/
theorem test_sti :
    (after (start 0x3020 [(1, 0xBEEF)] [(0x3020, 0xB3FE), (0x301F, 0x4000)])).mem.read 0x4000 = 0xBEEF ∧
    (let t := after (typed (start 0x3000 [(0, 0x1234)] [(0x3000, 0xB003), (0x3004, 0xFE00)]) [0x61] .eof [true]);
      t.mem.read 0xFE00 = 0x1234 ∧ t.term.input = [0x61]) := by decide

/-- V-STR-1, V-STR-2. -/
theorem test_str :
    (after (start 0x3000 [(3, 0x3008), (2, 0x8001)] [(0x3000, 0x74C2)])).mem.read 0x300A = 0x8001 ∧
    (after (start 0x3000 [(2, 0x5000)] [(0x3000, 0x7480)])).mem.read 0x5000 = 0x5000 := by decide

/-! ### The keyboard words at fetch -/

/-- V-KB-6: a fetch from KBSR_ADDR polls, takes the key, and executes 0x8000, which is RTI. -/
theorem test_fetch_polls :
    (let t := after (typed (start 0xFE00 [] []) [0x71] .eof [true]);
      t.run = .aborted .illegalOpcodeRti ⟨0x8000, 0xFE00⟩ ∧ t.mem.read 0xFE00 = 0x8000 ∧
        t.mem.read 0xFE02 = 0x0071 ∧ t.pc = 0xFE01) := by decide

/-! ### TRAP -/

/-- V-TR-3, V-TR-4. -/
theorem test_getc :
    (let t := after (typed (start 0x3000 [] [(0x3000, 0xF020)]) [0xE9] .eof []);
      t.reg 0 = 0x00E9 ∧ t.cond = .p ∧ t.reg 7 = 0x3001 ∧ t.term.output = []) ∧
    (let t := after (typed (start 0x3000 [] [(0x3000, 0xF020)]) [] .eof []); t.reg 0 = 0xFFFF ∧ t.cond = .n) := by decide

/-- V-TR-5: on stalled input the engine is still inside GETC. -/
theorem test_getc_waits :
    (after (typed (start 0x3000 [] [(0x3000, 0xF020)]) [] .stall [])).activity = .wait .getc := by decide

/-- R28, R86: an infinite input gives its next byte, whatever it is, and goes on. -/
theorem test_getc_endless :
    (let t := after (typed (start 0x3000 [] [(0x3000, 0xF020)]) [] (.endless 7) []);
      t.reg 0 = zext16 (Config.endlessByte 7) ∧ t.activity = .idle ∧ t.term.inputEnd = .endless 8) := ⟨rfl, rfl, rfl⟩

/-- V-TR-6. -/
theorem test_out :
    (let t := after (start 0x3000 [(0, 0x1241)] [(0x3000, 0xF021)]);
      t.term.output = [0x41] ∧ t.reg 0 = 0x1241 ∧ t.cond = .z) := by decide

/-- V-TR-8 (a word with a zero low byte is no end), V-TR-10 (the scan wraps). -/
theorem test_puts :
    (after (start 0x3000 [(0, 0x4000)] [(0x3000, 0xF022), (0x4000, 0x4100), (0x4001, 0x0042)])).term.output =
      [0x00, 0x42] ∧
    (after (start 0x3000 [(0, 0xFFFF)] [(0x3000, 0xF022), (0xFFFF, 0x0041), (0x0000, 0x0042)])).term.output =
      [0x41, 0x42] := by decide

/-- V-KB-8: with STRING_READ_POLLS the first read polls, and finds the status word 0. -/
theorem test_puts_polls :
    (after { start 0x3000 [(0, 0xFE00)] [(0x3000, 0xF022), (0xFE00, 0x0041)] with
      cfg := { Config.default with stringReadPolls := true } }).term.output = [] := by decide

/-- V-TR-13, V-TR-15, with the prompt of the parameters. -/
theorem test_in :
    (let t := after (typed (start 0x3000 [] [(0x3000, 0xF023)]) [0x79] .eof []);
      t.term.output = Config.default.inPrompt ++ [0x79] ∧ t.reg 0 = 0x0079 ∧ t.cond = .p) ∧
    (let t := after (typed (start 0x3000 [] [(0x3000, 0xF023)]) [] .eof []);
      t.term.output = Config.default.inPrompt ∧ t.reg 0 = 0xFFFF ∧ t.cond = .n) := by decide

/-- V-TR-14. -/
theorem test_in_sign :
    (let t := after { typed (start 0x3000 [] [(0x3000, 0xF023)]) [0xE9] .eof [] with
        cfg := { Config.default with inExtend := .sign } };
      t.reg 0 = 0xFFE9 ∧ t.cond = .n) := by decide

/-- V-TR-11, V-TR-12. -/
theorem test_putsp :
    (after (start 0x3000 [(0, 0x4000)] [(0x3000, 0xF024), (0x4000, 0x6548), (0x4001, 0x006C)])).term.output =
      [0x48, 0x65, 0x6C] ∧
    (after (start 0x3000 [(0, 0x4000)] [(0x3000, 0xF024), (0x4000, 0x4100)])).term.output = [0x00, 0x41] := by decide

/-- V-TR-16. -/
theorem test_halt :
    (let t := after (start 0x3002 [] [(0x3002, 0xF025)]);
      t.term.output = Config.default.haltNotice ∧ t.run = .halted ∧ t.pc = 0x3003 ∧ t.reg 7 = 0x3003) := by decide

/-- V-TR-17, V-TR-18. -/
theorem test_undefined_vector :
    (let t := after (start 0x3000 [] [(0x3000, 0xF0FF)]);
      t.reg 7 = 0x3001 ∧ t.run = .aborted .undefinedTrap ⟨0xF0FF, 0x3000⟩ ∧ t.pc = 0x3001) ∧
    (let t := after { start 0x3000 [] [(0x3000, 0xF0FF)] with
        cfg := { Config.default with undefTrapPolicy := .noop } };
      t.reg 7 = 0x3001 ∧ t.pc = 0x3001 ∧ t.run = .running) := by decide

/-! ### The fatal opcodes and the cycle -/

/-- V-RS-2, V-RS-4. -/
theorem test_reserved :
    (after (start 0x3000 [] [(0x3000, 0x8FFF)])).run = .aborted .illegalOpcodeRti ⟨0x8FFF, 0x3000⟩ ∧
    (let t := after (start 0xFFFF [] [(0xFFFF, 0xD000)]);
      t.run = .aborted .illegalOpcodeRes ⟨0xD000, 0xFFFF⟩ ∧ t.pc = 0x0000) := by decide

/-- V-CY-2: the first step of a fresh machine is a NOP at 0x3000. -/
theorem test_first_step :
    State.reset.pc = 0x3000 ∧ State.reset.cond = .z ∧ (after State.reset).pc = 0x3001 ∧
      (after State.reset).ir = 0x0000 := by decide

/-- The host's placement of a word: the very next step runs it. -/
theorem test_withFetchWord :
    (after (State.reset.withFetchWord 16 0x1021)).reg 0 = 1 ∧ (after (State.reset.withFetchWord 16 0xF025)).run = .halted := by
  decide

/-! ### The image -/

/-- S7: an image that runs over the top of memory is truncated. -/
theorem test_load_truncates :
    (let r := State.reset.load (some [0xFF, 0xFE, 0x11, 0x11, 0x22, 0x22, 0x33, 0x33]);
      r.1 = .success ∧ r.2.mem = [(0xFFFE, 0x1111), (0xFFFF, 0x2222)]) := by decide

/-- V-IM-2 (an odd byte), V-IM-3 and V-IM-4 (too short), V-IM-5 (the later load wins). -/
theorem test_load_images :
    (State.reset.load (some [0x30, 0x00, 0x12])).1 = .success ∧
    (State.reset.load (some [0x30, 0x00, 0x12])).2.mem = [] ∧
    (State.reset.load (some [0x30])).1 = .failure ∧ (State.reset.load (some [])).1 = .failure ∧
    (State.reset.loadAll [some [0x30, 0x00, 0x11, 0x11, 0x22, 0x22], some [0x30, 0x01, 0x99, 0x99]]).mem =
      [(0x3000, 0x1111), (0x3001, 0x9999)] := by decide

/-! ## Witnesses: for each statement with hypotheses, inputs that meet all of them, clause by clause, at the
ends of their ranges -/

/-! ### Encoding -/

theorem witness_DecodeOfEncodeIsIdentity :
    (Instr.trap 0x1F).wf = true ∧ (Instr.trap 0x26).wf = true ∧ (Instr.jsr 0x400).wf = true := by decide

/-- Two words that differ in every ignored bit of their row. -/
theorem witness_IgnoredBitsExecuteTheSame :
    (let w : Word := 0x1001; let w' : Word := 0x1019;
      w &&& (decode w).row.significant = w' &&& (decode w).row.significant ∧ w ≠ w') ∧
    (let w : Word := 0x8000; let w' : Word := 0x8FFF;
      w &&& (decode w).row.significant = w' &&& (decode w).row.significant ∧ w ≠ w') := by decide

/-- The narrowest and the widest field, and the highest bit. -/
theorem witness_ExtensionSetsTheBitsAboveTheField :
    (1 ≤ 1 ∧ 1 < 16 ∧ 0 < 16) ∧ (1 ≤ 15 ∧ 15 < 16 ∧ 15 < 16) ∧ (1 ≤ 5 ∧ 5 < 16) := by decide

theorem witness_SignExtendedFieldsHaveTheirRanges :
    (1#1).getLsbD (1 - 1) = true ∧ (0x4000#15).getLsbD (15 - 1) = true := by decide

/-! ### States that meet the invariant -/

/-- A machine that has halted. -/
def halted : State := { start 0x3001 [(7, 0x3001)] [(0x3000, 0xF025)] with ir := 0xF025, run := .halted }

/-- A machine that RTI aborted. -/
def aborted : State :=
  { start 0x3001 [] [(0x3000, 0x8000)] with ir := 0x8000, run := .aborted .illegalOpcodeRti ⟨0x8000, 0x3000⟩ }

/-- A machine that waits in GETC on stalled input. -/
def waiting : State :=
  { typed (start 0x3001 [(7, 0x3001)] [(0x3000, 0xF020)]) [] .stall [] with ir := 0xF020, activity := .wait .getc }

/-- A machine inside PUTS, one byte out and not flushed. -/
def scanning : State :=
  { start 0x3001 [(7, 0x3001)] [(0x3000, 0xF022)] with
    ir := 0xF022, activity := .scan .puts 0x0000, term := { Terminal.ofInput [] .eof [] with output := [0x41] } }

/-- A machine between two instructions, with a key to come. -/
def between : State := typed (start 0x3000 [] [(0x3000, 0x1021), (0xFFFF, 0xF025)]) [0x61] .eof [true]

/-- The same machine with an infinite input, its listed bytes used up. -/
def endless : State := typed between [] (.endless 7) []

theorem between_inv : between.Inv where
  addresses := by decide
  memory := by decide
  stoppedIdle := fun _ => rfl
  flushedLe := by decide
  flushedAll := fun _ => rfl
  inTrap := fun _ h => nomatch h
  halted := fun h => nomatch h
  aborted := fun _ _ h => nomatch h

theorem halted_inv : halted.Inv where
  addresses := by decide
  memory := by decide
  stoppedIdle := fun _ => rfl
  flushedLe := by decide
  flushedAll := fun _ => rfl
  inTrap := fun _ h => nomatch h
  halted := fun _ => by decide
  aborted := fun _ _ h => nomatch h

theorem aborted_inv : aborted.Inv where
  addresses := by decide
  memory := by decide
  stoppedIdle := fun _ => rfl
  flushedLe := by decide
  flushedAll := fun _ => rfl
  inTrap := fun _ h => nomatch h
  halted := fun h => nomatch h
  aborted := fun c i h => by
    cases h
    exact ⟨rfl, rfl, rfl⟩

theorem waiting_inv : waiting.Inv where
  addresses := by decide
  memory := by decide
  stoppedIdle := fun h => absurd rfl h
  flushedLe := by decide
  flushedAll := fun _ => rfl
  inTrap := fun i h => by
    cases h
    decide
  halted := fun h => nomatch h
  aborted := fun _ _ h => nomatch h

theorem scanning_inv : scanning.Inv where
  addresses := by decide
  memory := by decide
  stoppedIdle := fun h => absurd rfl h
  flushedLe := by decide
  flushedAll := fun h => nomatch h
  inTrap := fun i h => by
    cases h
    decide
  halted := fun h => nomatch h
  aborted := fun _ _ h => nomatch h

/-- The invariant and a step, from every kind of state. -/
theorem witness_StepKeepsTheInvariant :
    (between.Inv ∧ step between = .next (after between)) ∧ (halted.Inv ∧ step halted = .next halted) ∧
    (aborted.Inv ∧ step aborted = .next aborted) ∧ (waiting.Inv ∧ step waiting = .next waiting) ∧
    (scanning.Inv ∧ ∃ t, step scanning = .next t) :=
  ⟨⟨between_inv, rfl⟩, ⟨halted_inv, rfl⟩, ⟨aborted_inv, rfl⟩, ⟨waiting_inv, rfl⟩, scanning_inv, _, rfl⟩

theorem witness_CreatedMachineHasTheInvariant :
    Config.default.wf ∧ ({ Config.default with kbsrAddr := 0, kbdrAddr := 0xFFFF } : Config).wf := by decide

theorem witness_LoadingKeepsTheInvariant : halted.Inv ∧ between.Inv := ⟨halted_inv, between_inv⟩

/-! ### The step -/

/-- Running, between instructions, PC away from KBSR_ADDR, at the last address too. -/
theorem witness_StepExecutesTheFetchedInstruction :
    (between.run = .running ∧ between.activity = .idle ∧ between.pc ≠ between.cfg.kbsrAddr) ∧
    (let s := start 0xFFFF [] []; s.run = .running ∧ s.activity = .idle ∧ s.pc ≠ s.cfg.kbsrAddr) := by decide

/-- A stopped machine; a step into HALTED; steps into ABORTED by each cause. -/
theorem witness_RunStateChangesOnlyByHaltAndAborts :
    halted.run ≠ .running ∧
    (let s := start 0x3000 [] [(0x3000, 0xF025)]; s.run = .running ∧ (after s).run = .halted) ∧
    (let s := start 0x3000 [] [(0x3000, 0x8000)];
      s.run = .running ∧ (after s).run = .aborted .illegalOpcodeRti ⟨0x8000, 0x3000⟩) ∧
    (let s := start 0xFFFF [] [(0xFFFF, 0xD000)];
      s.run = .running ∧ (after s).run = .aborted .illegalOpcodeRes ⟨0xD000, 0xFFFF⟩) ∧
    (let s := start 0x3000 [] [(0x3000, 0xF026)];
      s.run = .running ∧ (after s).run = .aborted .undefinedTrap ⟨0xF026, 0x3000⟩) := by decide

theorem witness_RunStateChangesOnlyByHaltAndAborts_step :
    (let s := start 0x3000 [] [(0x3000, 0xF025)]; step s = .next (after s)) ∧
    (let s := start 0x3000 [] [(0x3000, 0x8000)]; step s = .next (after s)) ∧
    (let s := start 0xFFFF [] [(0xFFFF, 0xD000)]; step s = .next (after s)) ∧
    (let s := start 0x3000 [] [(0x3000, 0xF026)]; step s = .next (after s)) := ⟨rfl, rfl, rfl, rfl⟩

theorem witness_StoppedMachineKeepsAllState :
    (halted.stopped ∧ Steps 2 halted halted) ∧ (aborted.stopped ∧ Steps 0 aborted aborted) :=
  ⟨⟨(fun h => nomatch h), .succ rfl (.succ rfl (.zero _))⟩, (fun h => nomatch h), .zero _⟩

theorem witness_AbortRecordsTheInstructionAndStopsForGood :
    Steps 1 (between.abort .illegalOpcodeRes) (between.abort .illegalOpcodeRes) := .succ rfl (.zero _)

/-- An instruction that does not write PC; a step inside a routine. -/
theorem witness_OnlyControlTransfersWritePc :
    ((Instr.lea 7 0x1FF).transfersControl = false ∧ ∃ t, exec (.lea 7 0x1FF) between = .next t) ∧
    (waiting.run = .running ∧ waiting.activity ≠ .idle ∧ step waiting = .next waiting) :=
  ⟨⟨rfl, _, rfl⟩, rfl, by decide, rfl⟩

/-- One instruction for each kind of row of R16, the link, no flags, flags on DR and on R0. -/
theorem witness_RegistersAndFlagsAreWrittenAsTabled :
    ((Instr.jsrr 7).wf = true ∧ (Instr.jsrr 7).links = true ∧ (Instr.jsrr 7).flagged = none ∧
      ∃ t, exec (.jsrr 7) between = .next t) ∧
    ((Instr.not 7 7).wf = true ∧ (Instr.not 7 7).flagged = some 7 ∧
      ∃ t, exec (.not 7 7) between = .next t ∧ t.activity = .idle) ∧
    (Instr.trapGetc.wf = true ∧ Instr.trapGetc.flagged = some 0 ∧
      ∃ t, exec .trapGetc between = .next t ∧ t.activity = .idle) :=
  ⟨⟨rfl, rfl, rfl, _, rfl⟩, ⟨rfl, rfl, _, rfl, rfl⟩, rfl, rfl, _, rfl, rfl⟩

theorem witness_CondIsReadByBrOnly :
    (∀ nzp off9, Instr.trapIn ≠ .br nzp off9) ∧ ∃ t, exec .trapIn between = .next t :=
  ⟨by simp, _, rfl⟩

/-- A store, an address next to the one it writes and away from the keyboard words. -/
theorem witness_MemoryChangesOnlyByStoresAndPolls :
    (let i := Instr.st 0 0x1FF; let a : Word := 0x3000;
      (∃ t, exec i between = .next t) ∧ a ≠ between.cfg.kbsrAddr ∧ a ≠ between.cfg.kbdrAddr ∧
        between.storeAddress i ≠ some a) :=
  ⟨⟨_, rfl⟩, by decide⟩

theorem witness_StepConsumesInputAndAppendsOutput : step between = .next (after between) := rfl

/-! ### Memory and the keyboard words -/

theorem witness_MemReadPollsOnlyAtTheStatusAddress :
    (0xFDFF : Word) ≠ between.cfg.kbsrAddr ∧ (0xFE02 : Word) ≠ between.cfg.kbsrAddr ∧
      (0xFE00 : Word) = between.cfg.kbsrAddr := by decide

/-- A poll that finds a key, and one that finds none. -/
theorem witness_PollUpdatesTheKeyboardWords :
    (between.cfg.wf ∧ between.term.kbdPoll.1 = some 0x61) ∧
    (halted.cfg.wf ∧ halted.term.kbdPoll.1 = none) := by decide

theorem witness_PollAnswersAreTheAllowedDraws :
    (between.term.kbdPoll.1 = some 0x61 ∧ between.term.byteAt 0 = some 0x61) ∧
    (halted.term.kbdPoll.1 = none ∧ halted.term.byteAt 0 = none) ∧
    (endless.term.byteAt 0 = some (Config.endlessByte 7) ∧
      (typed endless [] (.endless 7) [true]).term.kbdPoll.1 = some (Config.endlessByte 7)) :=
  ⟨by decide, by decide, rfl, rfl⟩

/-- A listed byte, a byte of an infinite input, the end, a stall. -/
theorem witness_KbdReadTakesTheInputInOrder :
    (between.term.byteAt 0 = some 0x61 ∧ between.term.input[0]? = some 0x61) ∧
    (endless.term.byteAt 0 = some (Config.endlessByte 7) ∧ endless.term.inputEnd = .endless 7 ∧
      endless.term.input.length ≤ 0) ∧
    (halted.term.byteAt 0 = none ∧ halted.term.inputEnd = .eof ∧ halted.term.input.length ≤ 0) ∧
    (waiting.term.byteAt 0 = none ∧ waiting.term.inputEnd = .stall ∧ waiting.term.input.length ≤ 0) :=
  ⟨by decide, ⟨rfl, rfl, by decide⟩, by decide, by decide⟩

/-- No key at either read: the input is there, but both draws are none. -/
theorem witness_RepeatedStatusReadsWithoutAKeyGiveZero :
    (let s := typed between [0x61] .eof [false, false];
      s.cfg.wf ∧ s.term.kbdPoll.1 = none ∧ (s.memRead s.cfg.kbsrAddr).2.term.kbdPoll.1 = none) := by decide

/-- Each store, to an address that is not KBSR_ADDR. -/
theorem witness_StoredWordIsFetched :
    ((∃ t, exec (.st 7 0x1FF) between = .next t) ∧ between.eaPcRel 0x1FF ≠ between.cfg.kbsrAddr) ∧
    ((∃ t, exec (.sti 7 0) between = .next t) ∧ (between.eaIndirect 0).1 ≠ between.cfg.kbsrAddr) ∧
    ((∃ t, exec (.str 7 7 0x20) between = .next t) ∧ between.eaBase 7 0x20 ≠ between.cfg.kbsrAddr) :=
  ⟨⟨⟨_, rfl⟩, by decide⟩, ⟨⟨_, rfl⟩, by decide⟩, ⟨_, rfl⟩, by decide⟩

/-! ### The instructions: the lowest and the highest word of each encoding, and the operands -/

theorem witness_AddWritesTheSumAndFlags :
    (0x1000 : Word) &&& 0xF020 = 0x1000 ∧ (0x1FDF : Word) &&& 0xF020 = 0x1000 ∧
    (0x1020 : Word) &&& 0xF020 = 0x1020 ∧ (0x1FFF : Word) &&& 0xF020 = 0x1020 := by decide

theorem witness_AndWritesTheBitwiseAndAndFlags :
    (0x5000 : Word) &&& 0xF020 = 0x5000 ∧ (0x5FDF : Word) &&& 0xF020 = 0x5000 ∧
    (0x5020 : Word) &&& 0xF020 = 0x5020 ∧ (0x5FFF : Word) &&& 0xF020 = 0x5020 := by decide

theorem witness_NotWritesTheComplementAndFlags :
    (0x9000 : Word) &&& 0xF000 = 0x9000 ∧ (0x9FFF : Word) &&& 0xF000 = 0x9000 := by decide

/-- A taken branch for each flag, one not taken, and the two masks that decide alone. -/
theorem witness_BrBranchesOnTheCurrentFlag :
    (0x0000 : Word) &&& 0xF000 = 0x0000 ∧ (0x0FFF : Word) &&& 0xF000 = 0x0000 ∧
    (4#3).getLsbD 2 = true ∧ (2#3).getLsbD 1 = true ∧ (1#3).getLsbD 0 = true ∧ (5#3).getLsbD 1 = false ∧
    between.cond = .z := by decide

theorem witness_JmpGoesToTheBaseRegister :
    (0xC000 : Word) &&& 0xF000 = 0xC000 ∧ (0xCFFF : Word) &&& 0xF000 = 0xC000 := by decide

theorem witness_JsrLinksAndGoesRelative :
    (0x4800 : Word) &&& 0xF800 = 0x4800 ∧ (0x4FFF : Word) &&& 0xF800 = 0x4800 := by decide

theorem witness_JsrrLinksThenReadsTheBase :
    (0x4000 : Word) &&& 0xF800 = 0x4000 ∧ (0x47FF : Word) &&& 0xF800 = 0x4000 ∧ (6 : RegIdx) ≠ 7 := by decide

/-- The address of the least and the greatest offset, the sum wrapping. -/
theorem witness_LdLoadsPcRelative :
    (0x2000 : Word) &&& 0xF000 = 0x2000 ∧ (0x2FFF : Word) &&& 0xF000 = 0x2000 ∧
    (let s := start 0x0000 [] [];
      (IsSum 0xFF00 s.pc (0x100#9).toInt ∧ (0xFF00 : Word) ≠ s.cfg.kbsrAddr) ∧ IsSum 0x00FF s.pc (0x0FF#9).toInt) := by
  simp only [IsSum]
  decide

theorem witness_LdiLoadsThroughThePointer :
    (0xA000 : Word) &&& 0xF000 = 0xA000 ∧ (0xAFFF : Word) &&& 0xF000 = 0xA000 ∧
    (let s := start 0x3001 [] [(0x3001, 0x3009)];
      IsSum 0x3001 s.pc (0x000#9).toInt ∧ (0x3001 : Word) ≠ s.cfg.kbsrAddr ∧
        s.mem.read 0x3001 ≠ s.cfg.kbsrAddr) := by
  simp only [IsSum]
  decide

theorem witness_LdrLoadsBaseRelative :
    (0x6000 : Word) &&& 0xF000 = 0x6000 ∧ (0x6FFF : Word) &&& 0xF000 = 0x6000 ∧
    (let s := start 0x3001 [(2, 0x0000)] [];
      IsSum 0xFFE0 (s.reg 2) (0b100000#6).toInt ∧ (0xFFE0 : Word) ≠ s.cfg.kbsrAddr ∧
        IsSum 0x001F (s.reg 2) (0b011111#6).toInt) := by
  simp only [IsSum]
  decide

theorem witness_LeaWritesTheAddressAndFlags :
    (0xE000 : Word) &&& 0xF000 = 0xE000 ∧ (0xEFFF : Word) &&& 0xF000 = 0xE000 := by decide

theorem witness_StStoresPcRelative :
    (0x3000 : Word) &&& 0xF000 = 0x3000 ∧ (0x3FFF : Word) &&& 0xF000 = 0x3000 ∧
    (0x3002 : Word) ≠ (start 0x3000 [] []).eaPcRel 1 := by decide

/-- The pointer away from KBSR_ADDR, and on it. -/
theorem witness_StiStoresThroughThePointer :
    (0xB000 : Word) &&& 0xF000 = 0xB000 ∧ (0xBFFF : Word) &&& 0xF000 = 0xB000 ∧
    (let s := start 0xFE01 [] [];
      (IsSum 0xFE01 s.pc (0x000#9).toInt ∧ (0xFE01 : Word) ≠ s.cfg.kbsrAddr) ∧ IsSum 0xFE00 s.pc (0x1FF#9).toInt) := by
  simp only [IsSum]
  decide

theorem witness_StrStoresBaseRelative :
    (0x7000 : Word) &&& 0xF000 = 0x7000 ∧ (0x7FFF : Word) &&& 0xF000 = 0x7000 ∧
    (0x3000 : Word) ≠ between.eaBase 0 1 := by decide

/-! ### TRAP -/

/-- Every vector of the case, and the undefined ones next to it and at the ends. -/
theorem witness_TrapLinksAndDispatchesOnTheVector :
    (0xF020 : Word) &&& 0xF000 = 0xF000 ∧ (0xFF25 : Word) &&& 0xF000 = 0xF000 ∧
    (0xF020 : Word).extractLsb' 0 8 = 0x20#8 ∧ (0xFF25 : Word).extractLsb' 0 8 = 0x25#8 ∧
    ((0xF01F : Word).extractLsb' 0 8).toNat < 0x20 ∧ 0x25 < ((0xF026 : Word).extractLsb' 0 8).toNat ∧
    (∃ t, exec .trapGetc between = .next t ∧ t.activity = .idle) :=
  ⟨by decide, by decide, by decide, by decide, by decide, by decide, _, rfl, rfl⟩

/-- A byte of either kind of input, the end of the input, and stalled input. -/
theorem witness_GetcReadsOneKey :
    (0xFF20 : Word) &&& 0xF0FF = 0xF020 ∧ between.term.nextKey = some 0x61 ∧
    endless.term.nextKey = some (Config.endlessByte 7) ∧
    (halted.term.input = [] ∧ halted.term.inputEnd = .eof) ∧
    (waiting.term.input = [] ∧ waiting.term.inputEnd = .stall) :=
  ⟨by decide, by decide, rfl, by decide, by decide⟩

theorem witness_OutWritesTheLowByte : (0xF021 : Word) &&& 0xF0FF = 0xF021 := by decide

theorem witness_InPromptsAndReadsOneKey :
    (0xFF23 : Word) &&& 0xF0FF = 0xF023 ∧ (between.term.nextKey = some 0x61 ∧ between.cfg.inExtend = .zero) ∧
    (let s := { between with cfg := { Config.default with inExtend := .sign } };
      s.term.nextKey = some 0x61 ∧ s.cfg.inExtend = .sign) ∧
    (halted.term.input = [] ∧ halted.term.inputEnd = .eof) ∧
    (waiting.term.input = [] ∧ waiting.term.inputEnd = .stall) := by decide

theorem witness_StalledKeyReadNeverReturns :
    (let s := typed (start 0x3001 [] []) [] .stall [];
      s.run = .running ∧ s.term.input = [] ∧ s.term.inputEnd = .stall ∧
        (∃ t, exec KeyKind.getc.trap s = .next t) ∧ ∃ t, exec KeyKind.inKey.trap s = .next t) :=
  ⟨rfl, rfl, rfl, ⟨_, rfl⟩, _, rfl⟩

theorem witness_WaitingKeyReadResumes :
    (let s := typed waiting [0xE9] .stall []; s.run = .running ∧ s.activity = .wait .getc ∧ s.term.nextKey = some 0xE9) ∧
    (let s := { typed waiting [0xE9] .stall [] with activity := .wait .inKey };
      s.run = .running ∧ s.activity = .wait .inKey ∧ s.term.nextKey = some 0xE9 ∧ s.cfg.inExtend = .zero ∧
        ({ s with cfg := { s.cfg with inExtend := .sign } } : State).cfg.inExtend = .sign) ∧
    (let s := typed waiting [] .eof [];
      s.run = .running ∧ s.activity = .wait .getc ∧ s.term.input = [] ∧ s.term.inputEnd = .eof) := by decide

theorem witness_HaltWritesTheNoticeAndHalts :
    (0xF025 : Word) &&& 0xF0FF = 0xF025 ∧ (0xFF25 : Word) &&& 0xF0FF = 0xF025 := by decide

/-- The vectors at the ends of both ranges, and both policies. -/
theorem witness_UndefinedVectorFollowsThePolicy :
    (0x00#8).toNat < 0x20 ∧ (0x1F#8).toNat < 0x20 ∧ 0x25 < (0x26#8).toNat ∧ 0x25 < (0xFF#8).toNat ∧
    between.cfg.undefTrapPolicy = .fatal ∧
    ({ between with cfg := { Config.default with undefTrapPolicy := .noop } } : State).cfg.undefTrapPolicy = .noop := by
  decide

theorem witness_RtiAndResAbort :
    (0x8000 : Word) &&& 0xF000 = 0x8000 ∧ (0x8FFF : Word) &&& 0xF000 = 0x8000 ∧
    (0xD000 : Word) &&& 0xF000 = 0xD000 ∧ (0xDFFF : Word) &&& 0xF000 = 0xD000 := by decide

/-! ### String scans -/

/-- A memory whose first `n` words are 1. -/
def filled (n : Nat) : Memory := (List.range n).map fun a => (a, 1#16)

theorem lookup_map_one (l : List Nat) (a : Nat) :
    Memory.lookup (l.map fun a => (a, 1#16)) a = if a ∈ l then 1#16 else 0#16 := by
  induction l with
  | nil => rfl
  | cons b l ih =>
    by_cases h : b = a
    · subst h; simp [Memory.lookup_cons]
    · simp [Memory.lookup_cons, h, Ne.symm h, ih]

theorem read_filled (n : Nat) (a : Word) : (filled n).read a = if a.toNat < n then 1#16 else 0#16 := by
  simp [Memory.read, filled, lookup_map_one]

theorem words_filled (n m : Nat) (a : Word) (h : a.toNat + m ≤ n) : ∀ w ∈ (filled n).words m a, w ≠ 0 := by
  induction m generalizing a with
  | zero => simp [Memory.words]
  | succ m ih =>
    intro w hw
    rcases List.mem_cons.1 hw with rfl | hw
    · rw [read_filled, if_pos (by omega)]; decide
    · refine ih (a + 1) ?_ w hw
      rw [BitVec.toNat_add, show (1 : Word).toNat = 1 from rfl]
      omega

/-- The longest strings: `n` words that are not zero from address 0 on, then a zero word. -/
theorem filled_string (n : Nat) (hn : n < 65536) :
    let s := { State.reset with mem := filled n }
    s.cfg.stringReadPolls = false ∧ n < 65536 ∧ (∀ w ∈ s.mem.words n (s.reg 0), w ≠ 0) ∧
      s.mem.read (s.reg 0 + BitVec.ofNat 16 n) = 0 := by
  refine ⟨rfl, hn, words_filled n n 0 (by simp), (read_filled _ _).trans (if_neg ?_)⟩
  have h0 : ({ State.reset with mem := filled n } : State).reg 0 = 0#16 := rfl
  rw [h0, BitVec.zero_add, BitVec.toNat_ofNat, Nat.mod_eq_of_lt hn]
  omega

theorem filled_loop (k : StringKind) (n : Nat) (hn : n < 65536) :
    let s := { State.reset with mem := filled n }
    n + 1 ≤ 65536 ∧ ∃ u, StringLoop k (n + 1) (s.reg 0) s.link u := by
  obtain ⟨hp, -, hw, h0⟩ := filled_string n hn
  exact ⟨hn, _, StringLoop.of_words (s := State.link { State.reset with mem := filled n }) hp hw h0⟩

theorem exec_string_next (k : StringKind) (s : State) : ∃ t, exec k.trap s = .next t := by
  cases k <;> exact ⟨_, rfl⟩

/-- A machine whose memory has no zero word. -/
theorem filled_scan (n : Nat) (hn : n = 65536) :
    let s := { State.reset with mem := filled n }
    s.cfg.stringReadPolls = false ∧ (∀ a, s.mem.read a ≠ 0) ∧ s.run = .running ∧
      (∃ t, exec StringKind.puts.trap s = .next t) ∧ ∃ t, exec StringKind.putsp.trap s = .next t := by
  refine ⟨rfl, fun a => ?_, rfl, exec_string_next .puts _, exec_string_next .putsp _⟩
  show (filled n).read a ≠ 0
  rw [read_filled, if_pos (hn ▸ a.isLt)]
  decide

/-- The empty string, and the longest one: 65,535 words that are not zero before the only zero word. -/
theorem witness_ZeroTerminatedStringIsWritten :
    (State.reset.cfg.stringReadPolls = false ∧ 0 < 65536 ∧ (∀ w ∈ State.reset.mem.words 0 (State.reset.reg 0), w ≠ 0) ∧
      State.reset.mem.read (State.reset.reg 0 + BitVec.ofNat 16 0) = 0) ∧
    (let s := { State.reset with mem := filled 65535 };
      s.cfg.stringReadPolls = false ∧ 65535 < 65536 ∧ (∀ w ∈ s.mem.words 65535 (s.reg 0), w ≠ 0) ∧
        s.mem.read (s.reg 0 + BitVec.ofNat 16 65535) = 0) :=
  ⟨⟨rfl, by decide, by simp [Memory.words], rfl⟩, filled_string 65535 (by decide)⟩

/-- The loop that ends at its first read, and the one that takes 65,536. -/
theorem witness_StringRoutinesRunTheirLoop :
    (0xF022 : Word) &&& 0xF0FF = 0xF022 ∧ (0xF024 : Word) &&& 0xF0FF = 0xF024 ∧
    (1 ≤ 65536 ∧ ∃ u, StringLoop .puts 1 (State.reset.reg 0) State.reset.link u) ∧
    (let s := { State.reset with mem := filled 65535 };
      65535 + 1 ≤ 65536 ∧ ∃ u, StringLoop .putsp (65535 + 1) (s.reg 0) s.link u) :=
  ⟨by decide, by decide, ⟨by decide, _, .stop rfl⟩, filled_loop .putsp 65535 (by decide)⟩

/-- A scan that ends at its next read. -/
theorem witness_UnfinishedScanGoesOn :
    scanning.run = .running ∧ scanning.activity = .scan .puts 0x0000 ∧ 1 ≤ 65536 ∧
      ∃ u, StringLoop .puts 1 0x0000 scanning u :=
  ⟨rfl, rfl, by decide, _, .stop rfl⟩

theorem witness_ScanWithoutAZeroWordNeverEnds :
    (let s := { State.reset with mem := filled 65536 };
      s.cfg.stringReadPolls = false ∧ (∀ a, s.mem.read a ≠ 0) ∧ s.run = .running ∧
        (∃ t, exec StringKind.puts.trap s = .next t) ∧ ∃ t, exec StringKind.putsp.trap s = .next t) :=
  filled_scan 65536 rfl

/-- An engine inside a string routine, in a memory without a zero word. -/
theorem filled_inside (k : StringKind) (n : Nat) (hn : n = 65536) :
    let s := { State.reset with mem := filled n, activity := .scan k 0xFFFF }
    s.run = .running ∧ (∃ a, s.activity = .scan k a) ∧ s.cfg.stringReadPolls = false ∧ (∀ a, s.mem.read a ≠ 0) ∧
      ∃ t, step s = .next t :=
  ⟨rfl, ⟨_, rfl⟩, rfl, (filled_scan n hn).2.1, _, step_resume rfl (by simp)⟩

theorem witness_StepInsideAnEndlessScanStaysInside :
    (let s := { State.reset with mem := filled 65536, activity := .scan .puts 0xFFFF };
      s.run = .running ∧ (∃ a, s.activity = .scan .puts a) ∧ s.cfg.stringReadPolls = false ∧
        (∀ a, s.mem.read a ≠ 0) ∧ ∃ t, step s = .next t) :=
  filled_inside .puts 65536 rfl

/-! ### Images and the zero slide -/

/-- An image at the top of memory: a word it reaches, one below it; an image without words; streams that
fail. -/
theorem witness_LoadPlacesTheImageWords :
    (let origin := 256 * (0xFF#8).toNat + (0xFF#8).toNat; let rest : List Byte := [0x11, 0x11, 0x22, 0x22, 0x33];
      (origin ≤ (0xFFFF#16).toNat ∧ (0xFFFF#16).toNat - origin < rest.length / 2) ∧ (0xFFFE#16).toNat < origin) ∧
    (let origin := 256 * (0x00#8).toNat + (0x00#8).toNat; let rest : List Byte := [0x11];
      rest.length / 2 ≤ (0x0000#16).toNat - origin) ∧
    (∀ bytes : List Byte, some [0x30] = some bytes → bytes.length < 2) ∧
    (∀ bytes : List Byte, none = some bytes → bytes.length < 2) :=
  ⟨by decide, by decide, fun _ h => by cases h; decide, fun _ h => nomatch h⟩

theorem witness_ZeroedMemoryIsASlideOfNops :
    State.reset.run = .running ∧ State.reset.activity = .idle ∧ (∀ a, State.reset.mem.read a = 0) ∧
      State.reset.term.nextKey = none := ⟨rfl, rfl, fun _ => rfl, rfl⟩

end Sys2Proof.Tests
end

section
/-! Extension of fields, bit by bit (spec/00_scope.md R12): what each extension puts at every index of
the word. -/

namespace Sys2Proof.Machine

/-- Within the word, `sext_16` keeps the field's bits and repeats its top bit above them (R12). -/
theorem getLsbD_sext16 {n : Nat} (h1 : 1 ≤ n) (h2 : n < 16) (f : BitVec n) {i : Nat} (hi : i < 16) :
    (sext16 f).getLsbD i = if i < n then f.getLsbD i else f.getLsbD (n - 1) := by
  rw [sext16_eq_signExtend h1 h2, BitVec.getLsbD_signExtend, BitVec.msb_eq_getLsbD_last]
  simp [hi]

/-- Within the word, `zext_16` keeps the field's bits and puts 0 above them (R12). -/
theorem getLsbD_zext16 {n : Nat} (f : BitVec n) {i : Nat} (hi : i < 16) :
    (zext16 f).getLsbD i = if i < n then f.getLsbD i else false := by
  have hkeep : (zext16 f).getLsbD i = f.getLsbD i := by simp [zext16, hi]
  rw [hkeep]
  split
  case isTrue => rfl
  case isFalse hin => exact BitVec.getLsbD_of_ge f i (Nat.le_of_not_lt hin)

/-- Settles O6: the two extensions read bit by bit; the signed one through its being two's-complement
sign extension. -/
theorem extensionSetsTheBitsAboveTheField : Obligations.ExtensionSetsTheBitsAboveTheField :=
  fun _ h1 h2 f _ hi => ⟨getLsbD_sext16 h1 h2 f hi, getLsbD_zext16 f hi⟩

end Sys2Proof.Machine
end

section
/-! The memory operations (spec/20_memory.md R31, R32, R35): what a plain read gives after a write, what a
write keeps, and where a read polls. -/

namespace Sys2Proof.Machine

/-- A plain read after a write gives the word written at its address, and the old word elsewhere; the
two keyboard words are no exception (R31, R35). -/
theorem State.memReadPlain_memWrite (s : State) (a v b : Word) :
    (s.memWrite a v).memReadPlain b = if b = a then v else s.memReadPlain b :=
  Memory.read_write s.mem a b v

/-- A write touches no register (R35). -/
theorem State.keepsRegs_memWrite (s : State) (a v : Word) : KeepsRegs [] s (s.memWrite a v) :=
  fun r _ => s.reg_memWrite a v r

/-- A write changes no parameter, and neither IR, RUN nor the activity (R35). -/
theorem State.keepsControl_memWrite (s : State) (a v : Word) : KeepsControl s (s.memWrite a v) :=
  ⟨s.memWrite_cfg a v, s.memWrite_ir a v, s.memWrite_run a v, s.memWrite_activity a v⟩

/-- Settles O23: the read from the memory's read-after-write rule, the frame field by field. -/
theorem writeThenPlainReadGivesTheWord : Obligations.WriteThenPlainReadGivesTheWord :=
  fun s a v =>
    ⟨s.memReadPlain_memWrite a v, s.keepsRegs_memWrite a v, s.memWrite_pc a v, s.memWrite_cond a v,
      s.memWrite_term a v, s.keepsControl_memWrite a v⟩

/-- Settles O24: the two cases of a MemRead, away from KBSR_ADDR and at it. -/
theorem memReadPollsOnlyAtTheStatusAddress : Obligations.MemReadPollsOnlyAtTheStatusAddress := by
  intro s a
  constructor
  case left => exact State.memRead_plain
  case right =>
    rintro rfl
    exact s.memRead_kbsr

end Sys2Proof.Machine
end

section
/-! The operate instructions (spec/40_operate.md R67 to R72): the words of each row, what a result write
leaves, and the effect of each instruction. -/

namespace Sys2Proof

/-- A word that matches a row decodes by the tag in the row's pattern (R59). -/
theorem ofTag_of_row {w m p : Word} {o : Opcode} (h : w &&& m = p) (hm : field m 12 4 = BitVec.allOnes 4)
    (hp : Opcode.ofTag (opcodeOf p) = o) : Opcode.ofTag (opcodeOf w) = o := by
  rw [opcodeOf_of_row h hm, hp]

/-! ### The words of each row -/

theorem decode_addReg_of_row {w : Word} (h : w &&& 0xF020 = 0x1000) :
    decode w = .addReg (drOf w) (sr1Of w) (sr2Of w) :=
  decode_addReg (ofTag_of_row h (by decide) (by decide)) (getLsbD_of_row h (by decide))

theorem decode_addImm_of_row {w : Word} (h : w &&& 0xF020 = 0x1020) :
    decode w = .addImm (drOf w) (sr1Of w) (imm5Of w) :=
  decode_addImm (ofTag_of_row h (by decide) (by decide)) (getLsbD_of_row h (by decide))

theorem decode_andReg_of_row {w : Word} (h : w &&& 0xF020 = 0x5000) :
    decode w = .andReg (drOf w) (sr1Of w) (sr2Of w) :=
  decode_andReg (ofTag_of_row h (by decide) (by decide)) (getLsbD_of_row h (by decide))

theorem decode_andImm_of_row {w : Word} (h : w &&& 0xF020 = 0x5020) :
    decode w = .andImm (drOf w) (sr1Of w) (imm5Of w) :=
  decode_andImm (ofTag_of_row h (by decide) (by decide)) (getLsbD_of_row h (by decide))

theorem decode_not_of_row {w : Word} (h : w &&& 0xF000 = 0x9000) : decode w = .not (drOf w) (sr1Of w) :=
  decode_not (ofTag_of_row h (by decide) (by decide))

end Sys2Proof

namespace Sys2Proof.Machine

/-! ### The result write (R22) -/

@[simp] theorem State.reg_writeResult_same (s : State) (dr : RegIdx) (v : Word) :
    (s.writeResult dr v).reg dr = v := by
  rw [State.reg_writeResult, if_pos rfl]

/-- A result write leaves COND reporting the result register (R21, R22). -/
theorem State.reports_writeResult (s : State) (dr : RegIdx) (v : Word) :
    (s.writeResult dr v).cond.Reports ((s.writeResult dr v).reg dr) := by
  rw [State.reg_writeResult_same, State.writeResult_cond]
  exact Cond.ofWord_reports v

/-- A result write touches no register but its own. -/
theorem State.keepsRegs_writeResult (s : State) (dr : RegIdx) (v : Word) :
    KeepsRegs [dr] s (s.writeResult dr v) := fun r hr => by
  rw [State.reg_writeResult, if_neg (List.ne_of_not_mem_cons hr)]

theorem State.writesOnlyResult_writeResult (s : State) (dr : RegIdx) (v : Word) :
    WritesOnlyResult dr s (s.writeResult dr v) :=
  ⟨s.keepsRegs_writeResult dr v, rfl, fun _ => rfl, rfl, rfl, rfl, rfl, rfl⟩

/-! ### The effect of each instruction -/

section Exec
variable (s : State) (dr sr1 sr2 : RegIdx) (imm5 : BitVec 5)

theorem exec_addReg : exec (.addReg dr sr1 sr2) s = .next (s.writeResult dr (s.reg sr1 + s.reg sr2)) := rfl
theorem exec_addImm : exec (.addImm dr sr1 imm5) s = .next (s.writeResult dr (s.reg sr1 + sext16 imm5)) := rfl
theorem exec_andReg : exec (.andReg dr sr1 sr2) s = .next (s.writeResult dr (s.reg sr1 &&& s.reg sr2)) := rfl
theorem exec_andImm : exec (.andImm dr sr1 imm5) s = .next (s.writeResult dr (s.reg sr1 &&& sext16 imm5)) := rfl
theorem exec_not : exec (.not dr sr1) s = .next (s.writeResult dr (~~~ s.reg sr1)) := rfl

end Exec

/-- An instruction whose whole effect is a result write completes with the result in DR, COND reporting
it, and nothing else changed; what is known of the value is then known of DR. -/
theorem exists_next_of_writeResult {i : Instr} {s : State} {dr : RegIdx} {v : Word} (P : Word → Prop)
    (hexec : exec i s = .next (s.writeResult dr v)) (hv : P v) :
    ∃ t, exec i s = .next t ∧ P (t.reg dr) ∧ t.cond.Reports (t.reg dr) ∧ WritesOnlyResult dr s t :=
  ⟨_, hexec, (s.reg_writeResult_same dr v).symm ▸ hv, s.reports_writeResult dr v,
    s.writesOnlyResult_writeResult dr v⟩

/-- Bit `i` of a sign-extended field is the field's bit `i`, its top bit standing for all higher ones
(R12). -/
theorem getLsbD_sext16_min {n : Nat} (h1 : 1 ≤ n) (h2 : n < 16) (f : BitVec n) {i : Nat} (hi : i < 16) :
    (sext16 f).getLsbD i = f.getLsbD (min i (n - 1)) := by
  rw [getLsbD_sext16 h1 h2 f hi]
  split
  case isTrue hin => rw [Nat.min_eq_left (Nat.le_sub_one_of_lt hin)]
  case isFalse hin => rw [Nat.min_eq_right (by omega)]

/-- Settles O29: both rows' words, then the two sums; the immediate one is the signed sum of R12's
extension. -/
theorem addWritesTheSumAndFlags : Obligations.AddWritesTheSumAndFlags := by
  refine ⟨fun _ => decode_addReg_of_row, fun _ => decode_addImm_of_row, ?reg, ?imm⟩
  case reg =>
    intro s dr sr1 sr2
    exact exists_next_of_writeResult (fun v => v.toNat = ((s.reg sr1).toNat + (s.reg sr2).toNat) % 65536)
      (exec_addReg s dr sr1 sr2) (BitVec.toNat_add ..)
  case imm =>
    intro s dr sr1 imm5
    exact exists_next_of_writeResult (IsSum · (s.reg sr1) imm5.toInt)
      (exec_addImm s dr sr1 imm5) (isSum_add_sext16 (by decide) (by decide) _ imm5)

/-- Settles O30: both rows' words, then the two results bit by bit; the immediate's bits are those of its
sign extension. -/
theorem andWritesTheBitwiseAndAndFlags : Obligations.AndWritesTheBitwiseAndAndFlags := by
  refine ⟨fun _ => decode_andReg_of_row, fun _ => decode_andImm_of_row, ?reg, ?imm⟩
  case reg =>
    intro s dr sr1 sr2
    exact exists_next_of_writeResult
      (fun v => ∀ i, i < 16 → v.getLsbD i = ((s.reg sr1).getLsbD i && (s.reg sr2).getLsbD i))
      (exec_andReg s dr sr1 sr2) (fun _ _ => BitVec.getLsbD_and)
  case imm =>
    intro s dr sr1 imm5
    refine exists_next_of_writeResult
      (fun v => ∀ i, i < 16 → v.getLsbD i = ((s.reg sr1).getLsbD i && imm5.getLsbD (min i 4)))
      (exec_andImm s dr sr1 imm5) fun i hi => ?_
    rw [BitVec.getLsbD_and, getLsbD_sext16_min (by decide) (by decide) imm5 hi]

/-- Settles O31: the row's words, whatever their bits 5:0, then the complement as 65535 less the value. -/
theorem notWritesTheComplementAndFlags : Obligations.NotWritesTheComplementAndFlags := by
  refine ⟨fun _ => decode_not_of_row, fun s dr sr => ?_⟩
  exact exists_next_of_writeResult (fun v => v.toNat = 65535 - (s.reg sr).toNat)
    (exec_not s dr sr) BitVec.toNat_not

end Sys2Proof.Machine
end

section
/-! JMP and JSR (spec/41_control.md R75, R76): the words of each row, what a jump and a linked jump leave,
and the effect of each instruction. -/

namespace Sys2Proof

/-! ### The words of each row -/

theorem decode_jmp_of_row {w : Word} (h : w &&& 0xF000 = 0xC000) : decode w = .jmp (sr1Of w) :=
  decode_jmp (ofTag_of_row h (by decide) (by decide))

theorem decode_jsr_of_row {w : Word} (h : w &&& 0xF800 = 0x4800) : decode w = .jsr (off11Of w) :=
  decode_jsr (ofTag_of_row h (by decide) (by decide)) (getLsbD_of_row h (by decide))

/-- RET's word is JMP through R7 (R75). -/
theorem decode_ret : decode 0xC1C0 = .jmp 7 := decode_jmp_of_row (by decide)

end Sys2Proof

namespace Sys2Proof.Machine

/-! ### What a control transfer leaves (R73) -/

/-- Nothing but PC and the registers of `ds` changes: the frame of a control transfer. -/
def KeepsAllButPc (ds : List RegIdx) (s t : State) : Prop :=
  KeepsRegs ds s t ∧ t.cond = s.cond ∧ KeepsMemory s t ∧ t.term = s.term ∧ KeepsControl s t

theorem State.keepsAllButPc_jump (s : State) (target : Word) :
    KeepsAllButPc [] s { s with pc := target } :=
  ⟨fun _ _ => rfl, rfl, fun _ => rfl, rfl, rfl, rfl, rfl, rfl⟩

@[simp] theorem State.reg_link_same (s : State) : s.link.reg 7 = s.pc := s.reg_setReg_same 7 s.pc

/-- The link touches no register but R7 (R17). -/
theorem State.keepsRegs_link (s : State) : KeepsRegs [7] s s.link := fun _ hr =>
  s.reg_setReg_ne s.pc (List.ne_of_not_mem_cons hr)

/-- A jump after the link changes R7 besides PC, and COND is not updated by the R7 write (R22). -/
theorem State.keepsAllButPc_linkedJump (s : State) (target : Word) :
    KeepsAllButPc [7] s { s.link with pc := target } :=
  ⟨s.keepsRegs_link, s.link_cond, fun _ => rfl, s.link_term, s.link_cfg, s.link_ir, s.link_run,
    s.link_activity⟩

/-! ### The effect of each instruction -/

theorem exec_jmp (s : State) (baseR : RegIdx) : exec (.jmp baseR) s = .next { s with pc := s.reg baseR } := rfl

theorem exec_jsr (s : State) (off11 : BitVec 11) :
    exec (.jsr off11) s = .next { s.link with pc := s.pc + sext16 off11 } := rfl

/-- Settles O33: the row's words, RET's among them, then the jump and its frame. -/
theorem jmpGoesToTheBaseRegister : Obligations.JmpGoesToTheBaseRegister :=
  ⟨fun _ => decode_jmp_of_row, decode_ret,
    fun s baseR => ⟨_, exec_jmp s baseR, rfl, s.keepsAllButPc_jump (s.reg baseR)⟩⟩

/-- Settles O34: the row's words, then the link, the signed sum of R12's extension as target, and the
frame of a linked jump. -/
theorem jsrLinksAndGoesRelative : Obligations.JsrLinksAndGoesRelative :=
  ⟨fun _ => decode_jsr_of_row,
    fun s off11 => ⟨_, exec_jsr s off11, s.reg_link_same,
      isSum_add_sext16 (by decide) (by decide) s.pc off11, s.keepsAllButPc_linkedJump (s.pc + sext16 off11)⟩⟩

end Sys2Proof.Machine
end

section
/-! The loads, stores and LEA (spec/42_load_store.md R78 to R85): the words of each row, the addresses as
signed sums, what a load or a store leaves once its reads have polled, and the effect of each
instruction. -/

namespace Sys2Proof

/-! ### The words of each row -/

section Rows
variable {w : Word}

theorem decode_ld_of_row (h : w &&& 0xF000 = 0x2000) : decode w = .ld (drOf w) (off9Of w) :=
  decode_ld (ofTag_of_row h (by decide) (by decide))

theorem decode_ldi_of_row (h : w &&& 0xF000 = 0xA000) : decode w = .ldi (drOf w) (off9Of w) :=
  decode_ldi (ofTag_of_row h (by decide) (by decide))

theorem decode_ldr_of_row (h : w &&& 0xF000 = 0x6000) : decode w = .ldr (drOf w) (sr1Of w) (off6Of w) :=
  decode_ldr (ofTag_of_row h (by decide) (by decide))

theorem decode_lea_of_row (h : w &&& 0xF000 = 0xE000) : decode w = .lea (drOf w) (off9Of w) :=
  decode_lea (ofTag_of_row h (by decide) (by decide))

theorem decode_st_of_row (h : w &&& 0xF000 = 0x3000) : decode w = .st (drOf w) (off9Of w) :=
  decode_st (ofTag_of_row h (by decide) (by decide))

theorem decode_sti_of_row (h : w &&& 0xF000 = 0xB000) : decode w = .sti (drOf w) (off9Of w) :=
  decode_sti (ofTag_of_row h (by decide) (by decide))

theorem decode_str_of_row (h : w &&& 0xF000 = 0x7000) : decode w = .str (drOf w) (sr1Of w) (off6Of w) :=
  decode_str (ofTag_of_row h (by decide) (by decide))

end Rows

end Sys2Proof

namespace Sys2Proof.Machine

/-! ### The addresses (R78) -/

theorem State.isSum_eaPcRel (s : State) (off9 : BitVec 9) : IsSum (s.eaPcRel off9) s.pc off9.toInt :=
  isSum_add_sext16 (by decide) (by decide) s.pc off9

theorem State.isSum_eaBase (s : State) (baseR : RegIdx) (off6 : BitVec 6) :
    IsSum (s.eaBase baseR off6) (s.reg baseR) off6.toInt :=
  isSum_add_sext16 (by decide) (by decide) (s.reg baseR) off6

/-! ### Frames across polls -/

/-- Polls touch no register, so a register frame after them is one from before them. -/
theorem State.Polled.keepsRegs {ds : List RegIdx} {s u t : State} (h : s.Polled u) (k : KeepsRegs ds u t) :
    KeepsRegs ds s t := fun r hr => (k r hr).trans (h.reg r)

/-- The same for the parameters, IR, RUN and the activity. -/
theorem State.Polled.keepsControl {s u t : State} (h : s.Polled u) (k : KeepsControl u t) :
    KeepsControl s t := by
  obtain ⟨hcfg, hir, hrun, hact⟩ := k
  exact ⟨hcfg.trans h.cfg, hir.trans h.ir, hrun.trans h.run, hact.trans h.activity⟩

/-! ### What a load leaves (R79 to R81) -/

/-- An instruction whose reads answer `r.1` and leave `r.2`, and which then writes that answer to DR,
completes with the answer in DR, COND reporting it, memory and the terminal as the reads leave them, and
nothing else changed; `Q` is whatever else is known of the state it leaves. -/
theorem exists_next_of_load {i : Instr} {s : State} {dr : RegIdx} {r : Word × State} {Q : State → Prop}
    (hexec : exec i s = .next (r.2.writeResult dr r.1)) (hpolled : s.Polled r.2)
    (hQ : Q (r.2.writeResult dr r.1)) :
    ∃ t, exec i s = .next t ∧ t.reg dr = r.1 ∧ t.cond.Reports (t.reg dr) ∧ KeepsRegs [dr] s t ∧
      t.pc = s.pc ∧ KeepsControl s t ∧ KeepsMemory r.2 t ∧ t.term = r.2.term ∧ Q t := by
  obtain ⟨hregs, hpc, hmem, hterm, hctl⟩ := r.2.writesOnlyResult_writeResult dr r.1
  exact ⟨_, hexec, r.2.reg_writeResult_same dr r.1, r.2.reports_writeResult dr r.1,
    hpolled.keepsRegs hregs, hpc.trans hpolled.pc, hpolled.keepsControl hctl, hmem, hterm, hQ⟩

/-- A load whose reads were plain changes neither memory nor the terminal. -/
theorem State.writeResult_of_plain {s : State} {r : Word × State} {v : Word} (h : r = (v, s)) (dr : RegIdx) :
    (r.2.writeResult dr r.1).reg dr = v ∧ KeepsMemory s (r.2.writeResult dr r.1) ∧
      (r.2.writeResult dr r.1).term = s.term := by
  subst h
  exact ⟨s.reg_writeResult_same dr v, fun _ => rfl, rfl⟩

/-- LDI's two reads are plain when neither the pointer nor the datum lies at KBSR_ADDR. -/
theorem State.memRead_memRead_plain {s : State} {a : Word} (ha : a ≠ s.cfg.kbsrAddr)
    (hp : s.mem.read a ≠ s.cfg.kbsrAddr) :
    (s.memRead a).2.memRead (s.memRead a).1 = (s.mem.read (s.mem.read a), s) := by
  rw [State.memRead_plain ha]
  exact State.memRead_plain hp

/-! ### What a store leaves (R83 to R85) -/

/-- Only the word at `a` is written, with `v`. -/
def WritesOnlyWord (a v : Word) (s t : State) : Prop :=
  t.mem.read a = v ∧ (∀ b, b ≠ a → t.mem.read b = s.mem.read b) ∧
    KeepsRegs [] s t ∧ t.pc = s.pc ∧ t.cond = s.cond ∧ t.term = s.term ∧ KeepsControl s t

theorem State.writesOnlyWord_memWrite (s : State) (a v : Word) : WritesOnlyWord a v s (s.memWrite a v) :=
  ⟨s.mem.read_write_same a v, fun _ hb => s.mem.read_write_ne v hb, s.keepsRegs_memWrite a v,
    s.memWrite_pc a v, s.memWrite_cond a v, s.memWrite_term a v, s.keepsControl_memWrite a v⟩

/-! ### The effect of each instruction -/

section Exec
variable (s : State) (r baseR : RegIdx) (off9 : BitVec 9) (off6 : BitVec 6)

theorem exec_ld : exec (.ld r off9) s =
    .next ((s.memRead (s.eaPcRel off9)).2.writeResult r (s.memRead (s.eaPcRel off9)).1) := rfl

theorem exec_ldi : exec (.ldi r off9) s =
    .next (((s.eaIndirect off9).2.memRead (s.eaIndirect off9).1).2.writeResult r
      ((s.eaIndirect off9).2.memRead (s.eaIndirect off9).1).1) := rfl

theorem exec_ldr : exec (.ldr r baseR off6) s =
    .next ((s.memRead (s.eaBase baseR off6)).2.writeResult r (s.memRead (s.eaBase baseR off6)).1) := rfl

theorem exec_lea : exec (.lea r off9) s = .next (s.writeResult r (s.eaPcRel off9)) := rfl

theorem exec_st : exec (.st r off9) s = .next (s.memWrite (s.eaPcRel off9) (s.reg r)) := rfl

/-- STI stores the source register as it was before the pointer's read, which writes no register. -/
theorem exec_sti : exec (.sti r off9) s =
    .next ((s.eaIndirect off9).2.memWrite (s.eaIndirect off9).1 (s.reg r)) := by
  rw [← s.memRead_reg (s.eaPcRel off9) r]
  rfl

theorem exec_str : exec (.str r baseR off6) s = .next (s.memWrite (s.eaBase baseR off6) (s.reg r)) := rfl

end Exec

/-- Settles O36: the row's words, then a load whose one read is a MemRead at the signed sum, plain away
from KBSR_ADDR. -/
theorem ldLoadsPcRelative : Obligations.LdLoadsPcRelative := by
  refine ⟨fun _ => decode_ld_of_row, fun s dr off9 ea hea => ?_⟩
  obtain rfl := hea.unique (s.isSum_eaPcRel off9)
  exact exists_next_of_load (exec_ld s dr off9) (s.polled_memRead _)
    fun hne => State.writeResult_of_plain (State.memRead_plain hne) dr

/-- Settles O37: the row's words, then a load whose reads are the pointer's MemRead and the datum's from
the state that one leaves. -/
theorem ldiLoadsThroughThePointer : Obligations.LdiLoadsThroughThePointer := by
  refine ⟨fun _ => decode_ldi_of_row, fun s dr off9 pa hpa => ?_⟩
  obtain rfl := hpa.unique (s.isSum_eaPcRel off9)
  exact exists_next_of_load (exec_ldi s dr off9) ((s.polled_memRead _).trans (State.polled_memRead _ _))
    fun hne hp => State.writeResult_of_plain (State.memRead_memRead_plain hne hp) dr

/-- Settles O38: the row's words, then a load at the base register's signed sum. The address is taken
before DR is written, so DR may be the base. -/
theorem ldrLoadsBaseRelative : Obligations.LdrLoadsBaseRelative := by
  refine ⟨fun _ => decode_ldr_of_row, fun s dr baseR off6 ea hea => ?_⟩
  obtain rfl := hea.unique (s.isSum_eaBase baseR off6)
  exact exists_next_of_load (exec_ldr s dr baseR off6) (s.polled_memRead _)
    fun hne => State.writeResult_of_plain (State.memRead_plain hne) dr

/-- Settles O39: the row's words, then a result write of the signed sum, with no read before it. -/
theorem leaWritesTheAddressAndFlags : Obligations.LeaWritesTheAddressAndFlags :=
  ⟨fun _ => decode_lea_of_row, fun s dr off9 =>
    exists_next_of_writeResult (IsSum · s.pc off9.toInt) (exec_lea s dr off9) (s.isSum_eaPcRel off9)⟩

/-- Settles O40: the row's words, then one plain write at the signed sum. -/
theorem stStoresPcRelative : Obligations.StStoresPcRelative :=
  ⟨fun _ => decode_st_of_row, fun s sr off9 =>
    ⟨_, exec_st s sr off9, s.isSum_eaPcRel off9, s.writesOnlyWord_memWrite (s.eaPcRel off9) (s.reg sr)⟩⟩

/-- Settles O41: the row's words, then one plain write from the state the pointer's MemRead leaves; away
from KBSR_ADDR that state is the one before. -/
theorem stiStoresThroughThePointer : Obligations.StiStoresThroughThePointer := by
  refine ⟨fun _ => decode_sti_of_row, fun s sr off9 pa hpa => ?_⟩
  obtain rfl := hpa.unique (s.isSum_eaPcRel off9)
  have hpolled := s.polled_memRead (s.eaPcRel off9)
  obtain ⟨hword, hothers, hregs, hpc, hcond, hterm, hctl⟩ :=
    (s.eaIndirect off9).2.writesOnlyWord_memWrite (s.eaIndirect off9).1 (s.reg sr)
  refine ⟨_, exec_sti s sr off9, hword, hothers, hpolled.keepsRegs hregs, hpc.trans hpolled.pc,
    hcond.trans hpolled.cond, hterm, hpolled.keepsControl hctl, fun hne => ?plain⟩
  case plain =>
    have hread : s.eaIndirect off9 = (s.mem.read (s.eaPcRel off9), s) := State.memRead_plain hne
    rw [hread] at hterm hothers ⊢
    exact ⟨congrArg Prod.fst hread, hterm, hothers⟩

/-- Settles O42: the row's words, then one plain write at the base register's signed sum. -/
theorem strStoresBaseRelative : Obligations.StrStoresBaseRelative :=
  ⟨fun _ => decode_str_of_row, fun s sr baseR off6 =>
    ⟨_, exec_str s sr baseR off6, s.isSum_eaBase baseR off6,
      s.writesOnlyWord_memWrite (s.eaBase baseR off6) (s.reg sr)⟩⟩

end Sys2Proof.Machine
end

section
/-! OUT (spec/43_trap.md R88, R90): the words of a TRAP row, what the routine writes, and its frame after
the link. -/

namespace Sys2Proof

/-- A word that matches a row of the TRAP table decodes by the vector in the row's pattern (R60, R88). -/
theorem decode_trap_of_row {w p : Word} (h : w &&& 0xF0FF = p) (hp : Opcode.ofTag (opcodeOf p) = .trap) :
    decode w = trapOf (vect8Of p) := by
  have hvect : vect8Of p = vect8Of w := by
    rw [← h]
    exact field_and (by decide)
  rw [hvect]
  exact decode_trap (ofTag_of_row h (by decide) hp)

theorem decode_trapOut_of_row {w : Word} (h : w &&& 0xF0FF = 0xF021) : decode w = .trapOut :=
  decode_trap_of_row h (by decide)

end Sys2Proof

namespace Sys2Proof.Machine

theorem lowByte_eq_ofNat_mod (w : Word) : lowByte w = BitVec.ofNat 8 (w.toNat % 256) := by
  rw [← lowByte_toNat, BitVec.ofNat_toNat, BitVec.setWidth_eq]

/-- OUT appends the low byte of R0 and flushes it with everything before it (R87, R90). -/
theorem State.outRoutine_term (s : State) :
    s.outRoutine.term = { s.term with output := s.term.output ++ [lowByte (s.reg 0)]
                                      flushed := s.term.output.length + 1 } := by
  simp [State.outRoutine]

theorem exec_trapOut (s : State) : exec .trapOut s = .next s.link.outRoutine := rfl

/-- Settles O45: the row's words, then the byte, which the link before it leaves as it was because it
writes R7 and not R0; the rest is the frame of the link, for OUT itself writes only to the terminal. -/
theorem outWritesTheLowByte : Obligations.OutWritesTheLowByte := by
  refine ⟨fun _ => decode_trapOut_of_row, fun s => ⟨_, exec_trapOut s, ?term, s.reg_link_same,
    s.keepsRegs_link, s.link_pc, s.link_cond, fun _ => rfl, s.link_cfg, s.link_ir, s.link_run,
    s.link_activity⟩⟩
  case term =>
    have hr0 : s.link.reg 0 = s.reg 0 := s.keepsRegs_link 0 (by decide)
    rw [State.outRoutine_term, State.link_term, hr0, lowByte_eq_ofNat_mod]

end Sys2Proof.Machine
end

section
/-! Decoding and encoding as inverses (spec/30_encoding.md R53 to R62): what the encoder's words are on
the bits of their rows, and that the decoder looks at those bits only. -/

namespace Sys2Proof

/-! ### Decode after encode -/

/-- Decoding the word of a well-formed instruction gives it back, row by row of the opcode table. -/
theorem decode_encode {i : Instr} (h : i.wf = true) : decode (encode i) = i :=
  match i with
  | .addReg dr sr1 sr2 => Laws.RoundTrip.addReg dr sr1 sr2 h
  | .addImm dr sr1 imm5 => Laws.RoundTrip.addImm dr sr1 imm5 h
  | .andReg dr sr1 sr2 => Laws.RoundTrip.andReg dr sr1 sr2 h
  | .andImm dr sr1 imm5 => Laws.RoundTrip.andImm dr sr1 imm5 h
  | .not dr sr => Laws.RoundTrip.not dr sr h
  | .br nzp off9 => Laws.RoundTrip.br nzp off9 h
  | .jmp baseR => Laws.RoundTrip.jmp baseR h
  | .jsr off11 => Laws.RoundTrip.jsr off11 h
  | .jsrr baseR => Laws.RoundTrip.jsrr baseR h
  | .ld dr off9 => Laws.RoundTrip.ld dr off9 h
  | .ldi dr off9 => Laws.RoundTrip.ldi dr off9 h
  | .ldr dr baseR off6 => Laws.RoundTrip.ldr dr baseR off6 h
  | .lea dr off9 => Laws.RoundTrip.lea dr off9 h
  | .st sr off9 => Laws.RoundTrip.st sr off9 h
  | .sti sr off9 => Laws.RoundTrip.sti sr off9 h
  | .str sr baseR off6 => Laws.RoundTrip.str sr baseR off6 h
  | .trap vect8 => Laws.RoundTrip.trap vect8 h
  | .trapGetc => Laws.RoundTrip.trapGetc h
  | .trapOut => Laws.RoundTrip.trapOut h
  | .trapPuts => Laws.RoundTrip.trapPuts h
  | .trapIn => Laws.RoundTrip.trapIn h
  | .trapPutsp => Laws.RoundTrip.trapPutsp h
  | .trapHalt => Laws.RoundTrip.trapHalt h
  | .rti => Laws.RoundTrip.rti h
  | .res => Laws.RoundTrip.res h

/-- Settles O3, from the round trip of each row. -/
theorem decodeOfEncodeIsIdentity : Obligations.DecodeOfEncodeIsIdentity := fun _ => decode_encode

/-! ### The decoder looks at the row's bits only (R62) -/

/-- Every row reads the tag. -/
theorem Instr.field_significant_tag (i : Instr) : field i.row.significant 12 4 = BitVec.allOnes 4 := by
  cases i <;> simp only [Instr.row] <;> decide

/-- A TRAP word's row reads the tag and the vector (R55). -/
theorem significant_trapOf (v : Byte) : (trapOf v).row.significant = 0xF0FF := by
  unfold trapOf
  split_ifs <;> rfl

/-- Words that agree on every bit are equal. -/
theorem eq_of_and_allOnes {w v : Word} (h : w &&& 0xFFFF = v &&& 0xFFFF) : w = v := by
  have hones : (0xFFFF : Word) = BitVec.allOnes 16 := rfl
  rwa [hones, BitVec.and_allOnes, BitVec.and_allOnes] at h

/-- The register forms of ADD and AND read every bit but 4:3 (R55). -/
theorem opr_fields_congr {w v : Word} (h : w &&& 0xFFE7 = v &&& 0xFFE7) :
    immFlagOf w = immFlagOf v ∧ drOf w = drOf v ∧ sr1Of w = sr1Of v ∧ sr2Of w = sr2Of v :=
  ⟨getLsbD_eq_of_and_eq h (by decide), field_eq_of_and_eq h (by decide), field_eq_of_and_eq h (by decide),
    field_eq_of_and_eq h (by decide)⟩

/-- A word that agrees with another on the bits of the row the other decodes to decodes to the same. -/
theorem decode_congr {w v : Word}
    (h : w &&& (decode v).row.significant = v &&& (decode v).row.significant) : decode w = decode v := by
  have htag : opcodeOf w = opcodeOf v := field_eq_of_and_eq h (Instr.field_significant_tag _)
  have hw : Opcode.ofTag (opcodeOf w) = Opcode.ofTag (opcodeOf v) := by rw [htag]
  rcases hv : Opcode.ofTag (opcodeOf v) <;> rw [hv] at hw
  case br => rw [decode_br hv] at h; rw [eq_of_and_allOnes h]
  case ld => rw [decode_ld hv] at h; rw [eq_of_and_allOnes h]
  case st => rw [decode_st hv] at h; rw [eq_of_and_allOnes h]
  case ldr => rw [decode_ldr hv] at h; rw [eq_of_and_allOnes h]
  case str => rw [decode_str hv] at h; rw [eq_of_and_allOnes h]
  case ldi => rw [decode_ldi hv] at h; rw [eq_of_and_allOnes h]
  case sti => rw [decode_sti hv] at h; rw [eq_of_and_allOnes h]
  case lea => rw [decode_lea hv] at h; rw [eq_of_and_allOnes h]
  case rti => rw [decode_rti hv, decode_rti hw]
  case res => rw [decode_res hv, decode_res hw]
  case not =>
    rw [decode_not hv] at h
    change w &&& 0xFFC0 = v &&& 0xFFC0 at h
    have hdr : drOf w = drOf v := field_eq_of_and_eq h (by decide)
    have hsr1 : sr1Of w = sr1Of v := field_eq_of_and_eq h (by decide)
    rw [decode_not hw, decode_not hv, hdr, hsr1]
  case jmp =>
    rw [decode_jmp hv] at h
    change w &&& 0xF1C0 = v &&& 0xF1C0 at h
    have hsr1 : sr1Of w = sr1Of v := field_eq_of_and_eq h (by decide)
    rw [decode_jmp hw, decode_jmp hv, hsr1]
  case add =>
    rcases hf : immFlagOf v
    · rw [decode_addReg hv hf] at h
      obtain ⟨hflag, hdr, hsr1, hsr2⟩ := opr_fields_congr h
      rw [decode_addReg hw (hflag.trans hf), decode_addReg hv hf, hdr, hsr1, hsr2]
    · rw [decode_addImm hv hf] at h; rw [eq_of_and_allOnes h]
  case and =>
    rcases hf : immFlagOf v
    · rw [decode_andReg hv hf] at h
      obtain ⟨hflag, hdr, hsr1, hsr2⟩ := opr_fields_congr h
      rw [decode_andReg hw (hflag.trans hf), decode_andReg hv hf, hdr, hsr1, hsr2]
    · rw [decode_andImm hv hf] at h; rw [eq_of_and_allOnes h]
  case jsr =>
    rcases hf : longFlagOf v
    · rw [decode_jsrr hv hf] at h
      change w &&& 0xF9C0 = v &&& 0xF9C0 at h
      have hfw : longFlagOf w = false := (getLsbD_eq_of_and_eq h (by decide)).trans hf
      have hsr1 : sr1Of w = sr1Of v := field_eq_of_and_eq h (by decide)
      rw [decode_jsrr hw hfw, decode_jsrr hv hf, hsr1]
    · rw [decode_jsr hv hf] at h; rw [eq_of_and_allOnes h]
  case trap =>
    rw [decode_trap hv, significant_trapOf] at h
    have hvect : vect8Of w = vect8Of v := field_eq_of_and_eq h (by decide)
    rw [decode_trap hw, decode_trap hv, hvect]

/-! ### A word as its fields -/

@[simp] theorem Opcode.tag_ofTag (t : BitVec 4) : (Opcode.ofTag t).tag = t := by
  revert t; decide

theorem tag_eq_opcodeOf {w : Word} {o : Opcode} (h : Opcode.ofTag (opcodeOf w) = o) : o.tag = opcodeOf w := by
  rw [← h, Opcode.tag_ofTag]

/-- Two adjacent fields are the field they make up. -/
theorem field_append_field (w : Word) (lo m n : Nat) :
    field w (lo + n) m ++ field w lo n = field w lo (m + n) :=
  BitVec.extractLsb'_append_extractLsb'_eq_extractLsb' rfl

theorem field_all (w : Word) : field w 0 16 = w := BitVec.extractLsb'_eq_self

theorem encodePcRel_fields {w : Word} {o : Opcode} (h : Opcode.ofTag (opcodeOf w) = o) :
    encodePcRel o (drOf w) (off9Of w) = w := by
  have hhigh : opcodeOf w ++ drOf w = field w 9 7 := field_append_field w 9 4 3
  rw [encodePcRel, tag_eq_opcodeOf h, hhigh]
  exact (field_append_field w 0 7 9).trans (field_all w)

theorem encodeBase_fields {w : Word} {o : Opcode} (h : Opcode.ofTag (opcodeOf w) = o) :
    encodeBase o (drOf w) (sr1Of w) (off6Of w) = w := by
  have hhigh : opcodeOf w ++ drOf w ++ sr1Of w = field w 6 10 :=
    (congrArg (· ++ sr1Of w) (field_append_field w 9 4 3)).trans (field_append_field w 6 7 3)
  rw [encodeBase, tag_eq_opcodeOf h, hhigh]
  exact (field_append_field w 0 10 6).trans (field_all w)

theorem immFlagOf_eq (w : Word) : immFlagOf w = (off6Of w).getLsbD 5 := by
  simp [immFlagOf, off6Of, field]

theorem longFlagOf_eq (w : Word) : longFlagOf w = (drOf w).getLsbD 2 := by
  simp [longFlagOf, drOf, field]

theorem sr2Of_eq (w : Word) : sr2Of w = (off6Of w).extractLsb' 0 3 := by
  conv_lhs => rw [← encodeBase_fields (w := w) rfl, sr2Of_encodeBase]

theorem imm5Of_eq (w : Word) : imm5Of w = (off6Of w).extractLsb' 0 5 := by
  conv_lhs => rw [← encodeBase_fields (w := w) rfl, imm5Of_encodeBase]

theorem encodeOpi_fields {w : Word} {o : Opcode} (h : Opcode.ofTag (opcodeOf w) = o) (hf : immFlagOf w = true) :
    encodeOpi o (drOf w) (sr1Of w) (imm5Of w) = w := by
  have hlow : ∀ x : BitVec 6, x.getLsbD 5 = true → 1#1 ++ x.extractLsb' 0 5 = x := by decide
  rw [encodeOpi_eq, imm5Of_eq, hlow _ (immFlagOf_eq w ▸ hf), encodeBase_fields h]

/-- Bit 11 is the field that tells JSR from JSRR. -/
theorem encode_jsr_fields {w : Word} (h : Opcode.ofTag (opcodeOf w) = .jsr) (hf : longFlagOf w = true) :
    encode (.jsr (off11Of w)) = w := by
  have hbit : field w 11 1 = 1#1 := by
    apply BitVec.eq_of_getLsbD_eq
    intro i hi
    obtain rfl : i = 0 := by omega
    simpa [field, longFlagOf] using hf
  have hhigh : opcodeOf w ++ field w 11 1 = field w 11 5 := field_append_field w 11 4 1
  rw [encode, tag_eq_opcodeOf h, ← hbit, hhigh]
  exact (field_append_field w 0 5 11).trans (field_all w)

/-! ### Encode after decode -/

/-- Two words of the base format that agree on their masked fields agree under the mask made of them. -/
theorem encodeBase_and_congr {o : Opcode} {r r' b b' mr mb : RegIdx} {x x' mx : BitVec 6} (m : BitVec 4)
    (hr : r &&& mr = r' &&& mr) (hb : b &&& mb = b' &&& mb) (hx : x &&& mx = x' &&& mx) :
    encodeBase o r b x &&& (m ++ mr ++ mb ++ mx) = encodeBase o r' b' x' &&& (m ++ mr ++ mb ++ mx) := by
  have h : (o.tag ++ r ++ b ++ x) &&& (m ++ mr ++ mb ++ mx) =
      (o.tag ++ r' ++ b' ++ x') &&& (m ++ mr ++ mb ++ mx) := by
    simp only [BitVec.and_append, hr, hb, hx]
  exact h

theorem encodeOpr_fields_and {w : Word} {o : Opcode} (h : Opcode.ofTag (opcodeOf w) = o)
    (hf : immFlagOf w = false) :
    encodeOpr o (drOf w) (sr1Of w) (sr2Of w) &&& 0xFFE7 = w &&& 0xFFE7 := by
  have hlow : ∀ x : BitVec 6, x.getLsbD 5 = false →
      (0#3 ++ x.extractLsb' 0 3) &&& 0x27#6 = x &&& 0x27#6 := by decide
  conv_rhs => rw [← encodeBase_fields h]
  rw [encodeOpr_eq, sr2Of_eq]
  exact encodeBase_and_congr 0xF (mr := 7) (mb := 7) rfl rfl (hlow _ (immFlagOf_eq w ▸ hf))

theorem encode_jsrr_fields_and {w : Word} (h : Opcode.ofTag (opcodeOf w) = .jsr) (hf : longFlagOf w = false) :
    encode (.jsrr (sr1Of w)) &&& 0xF9C0 = w &&& 0xF9C0 := by
  have hbase : encode (.jsrr (sr1Of w)) = encodeBase .jsr 0 (sr1Of w) 0 := by
    generalize sr1Of w = baseR
    revert baseR
    decide
  have hdr : ∀ r : RegIdx, r.getLsbD 2 = false → 0#3 &&& 4#3 = r &&& 4#3 := by decide
  conv_rhs => rw [← encodeBase_fields h]
  rw [hbase]
  exact encodeBase_and_congr 0xF (mr := 4) (mb := 7) (mx := 0) (hdr _ (longFlagOf_eq w ▸ hf)) rfl (by simp)

theorem encode_trapOf (v : Byte) : encode (trapOf v) = encodeTrap v := by
  unfold trapOf
  split_ifs <;> simp_all [encode]

theorem encodeTrap_fields_and {w : Word} (h : Opcode.ofTag (opcodeOf w) = .trap) :
    encodeTrap (vect8Of w) &&& 0xF0FF = w &&& 0xF0FF := by
  have hw : opcodeOf w ++ field w 8 4 ++ vect8Of w = w :=
    (congrArg (· ++ vect8Of w) (field_append_field w 8 4 4)).trans
      ((field_append_field w 0 8 8).trans (field_all w))
  have hm : (opcodeOf w ++ 0#4 ++ vect8Of w) &&& (0xF#4 ++ 0#4 ++ 0xFF#8) =
      (opcodeOf w ++ field w 8 4 ++ vect8Of w) &&& (0xF#4 ++ 0#4 ++ 0xFF#8) := by
    simp only [BitVec.and_append, BitVec.and_zero]
  rw [hw] at hm
  rw [encodeTrap, tag_eq_opcodeOf h]
  exact hm

/-- RTI and RES read nothing but their tag. -/
theorem tag_append_zero_and {w : Word} {o : Opcode} (h : Opcode.ofTag (opcodeOf w) = o) :
    (o.tag ++ 0#12) &&& 0xF000 = w &&& 0xF000 := by
  have hw : opcodeOf w ++ field w 0 12 = w := (field_append_field w 0 4 12).trans (field_all w)
  have hm : (opcodeOf w ++ 0#12) &&& (0xF#4 ++ 0#12) = (opcodeOf w ++ field w 0 12) &&& (0xF#4 ++ 0#12) := by
    simp only [BitVec.and_append, BitVec.and_zero]
  rw [hw] at hm
  rw [tag_eq_opcodeOf h]
  exact hm

/-- Encoding what a word decodes to gives the word back on the bits its row reads. -/
theorem encode_decode_and_significant (w : Word) :
    encode (decode w) &&& (decode w).row.significant = w &&& (decode w).row.significant := by
  rcases h : Opcode.ofTag (opcodeOf w)
  case br => rw [decode_br h, encode, encodePcRel_fields h]
  case ld => rw [decode_ld h, encode, encodePcRel_fields h]
  case st => rw [decode_st h, encode, encodePcRel_fields h]
  case ldi => rw [decode_ldi h, encode, encodePcRel_fields h]
  case sti => rw [decode_sti h, encode, encodePcRel_fields h]
  case lea => rw [decode_lea h, encode, encodePcRel_fields h]
  case ldr => rw [decode_ldr h, encode, encodeBase_fields h]
  case str => rw [decode_str h, encode, encodeBase_fields h]
  case not =>
    rw [decode_not h, encode]
    conv_rhs => rw [← encodeBase_fields h]
    exact encodeBase_and_congr 0xF (mr := 7) (mb := 7) (mx := 0) rfl rfl (by simp)
  case jmp =>
    rw [decode_jmp h, encode]
    conv_rhs => rw [← encodeBase_fields h]
    exact encodeBase_and_congr 0xF (mr := 0) (mb := 7) (mx := 0) (by simp) rfl (by simp)
  case add =>
    rcases hf : immFlagOf w
    · rw [decode_addReg h hf]; exact encodeOpr_fields_and h hf
    · rw [decode_addImm h hf, encode, encodeOpi_fields h hf]
  case and =>
    rcases hf : immFlagOf w
    · rw [decode_andReg h hf]; exact encodeOpr_fields_and h hf
    · rw [decode_andImm h hf, encode, encodeOpi_fields h hf]
  case jsr =>
    rcases hf : longFlagOf w
    · rw [decode_jsrr h hf]; exact encode_jsrr_fields_and h hf
    · rw [decode_jsr h hf, encode_jsr_fields h hf]
  case trap => rw [decode_trap h, encode_trapOf, significant_trapOf, encodeTrap_fields_and h]
  case rti => rw [decode_rti h]; exact tag_append_zero_and h
  case res => rw [decode_res h]; exact tag_append_zero_and h

/-- Settles O4: the word is its fields, and encoding puts the fields that were read back in their places. -/
theorem encodeOfDecodeKeepsReadBits : Obligations.EncodeOfDecodeKeepsReadBits :=
  encode_decode_and_significant

/-- Settles O5: the decoder sees only the bits of the row it finds, so the other bits cannot matter. -/
theorem ignoredBitsExecuteTheSame : Obligations.IgnoredBitsExecuteTheSame := by
  intro w w' h
  have hd : decode w' = decode w := decode_congr h.symm
  exact ⟨hd, fun s => by rw [hd]⟩

/-! ### The row a word matches (R59 to R61) -/

/-- A word under a mask of tag, bits 11:9 and bits 5:0, from what its fields are under the mask. -/
theorem and_mask_of_fields {w : Word} {o : Opcode} (h : Opcode.ofTag (opcodeOf w) = o) {r mr : RegIdx}
    {x mx : BitVec 6} (hr : drOf w &&& mr = r &&& mr) (hx : off6Of w &&& mx = x &&& mx) :
    w &&& (0xF#4 ++ mr ++ 0#3 ++ mx) = encodeBase o r 0 x &&& (0xF#4 ++ mr ++ 0#3 ++ mx) := by
  conv_lhs => rw [← encodeBase_fields h]
  exact encodeBase_and_congr 0xF hr (by simp) hx

/-- A row that fixes the tag alone. -/
theorem and_tag_mask {w : Word} {o : Opcode} (h : Opcode.ofTag (opcodeOf w) = o) {p : Word}
    (hp : encodeBase o 0 0 0 &&& 0xF000 = p) : w &&& 0xF000 = p :=
  (and_mask_of_fields (r := 0) (mr := 0) (x := 0) (mx := 0) h (by simp) (by simp)).trans hp

/-- A row that fixes the tag and bit 5. -/
theorem and_immFlag_mask {w : Word} {o : Opcode} (h : Opcode.ofTag (opcodeOf w) = o) {f : Bool}
    (hf : immFlagOf w = f) {p : Word} (hp : encodeBase o 0 0 (if f then 0x20 else 0) &&& 0xF020 = p) :
    w &&& 0xF020 = p := by
  have hbit : ∀ (x : BitVec 6) (f : Bool), x.getLsbD 5 = f →
      x &&& 0x20#6 = (if f then 0x20 else 0) &&& 0x20#6 := by decide
  exact (and_mask_of_fields (r := 0) (mr := 0) h (by simp) (hbit _ f (immFlagOf_eq w ▸ hf))).trans hp

/-- A row that fixes the tag and bit 11. -/
theorem and_longFlag_mask {w : Word} {o : Opcode} (h : Opcode.ofTag (opcodeOf w) = o) {f : Bool}
    (hf : longFlagOf w = f) {p : Word} (hp : encodeBase o (if f then 4 else 0) 0 0 &&& 0xF800 = p) :
    w &&& 0xF800 = p := by
  have hbit : ∀ (r : RegIdx) (f : Bool), r.getLsbD 2 = f →
      r &&& 4#3 = (if f then 4 else 0) &&& 4#3 := by decide
  exact (and_mask_of_fields (x := 0) (mx := 0) h (hbit _ f (longFlagOf_eq w ▸ hf)) (by simp)).trans hp

theorem trapOf_and_mask {w : Word} (h : Opcode.ofTag (opcodeOf w) = .trap) :
    w &&& (trapOf (vect8Of w)).row.mask = (trapOf (vect8Of w)).row.pattern := by
  have hw := encodeTrap_fields_and h
  rcases hv : definedVector (vect8Of w)
  · rw [trapOf_of_undefined hv]; exact and_tag_mask (p := 0xF000) h (by decide)
  · rcases definedVector_cases hv with hv | hv | hv | hv | hv | hv <;> rw [hv] at hw ⊢ <;> exact hw.symm

/-- Every word matches the row it decodes to. -/
theorem decode_and_mask (w : Word) : w &&& (decode w).row.mask = (decode w).row.pattern := by
  rcases h : Opcode.ofTag (opcodeOf w)
  case br => rw [decode_br h]; exact and_tag_mask (p := 0x0000) h (by decide)
  case ld => rw [decode_ld h]; exact and_tag_mask (p := 0x2000) h (by decide)
  case st => rw [decode_st h]; exact and_tag_mask (p := 0x3000) h (by decide)
  case ldr => rw [decode_ldr h]; exact and_tag_mask (p := 0x6000) h (by decide)
  case str => rw [decode_str h]; exact and_tag_mask (p := 0x7000) h (by decide)
  case rti => rw [decode_rti h]; exact and_tag_mask (p := 0x8000) h (by decide)
  case not => rw [decode_not h]; exact and_tag_mask (p := 0x9000) h (by decide)
  case ldi => rw [decode_ldi h]; exact and_tag_mask (p := 0xA000) h (by decide)
  case sti => rw [decode_sti h]; exact and_tag_mask (p := 0xB000) h (by decide)
  case jmp => rw [decode_jmp h]; exact and_tag_mask (p := 0xC000) h (by decide)
  case res => rw [decode_res h]; exact and_tag_mask (p := 0xD000) h (by decide)
  case lea => rw [decode_lea h]; exact and_tag_mask (p := 0xE000) h (by decide)
  case add =>
    rcases hf : immFlagOf w
    · rw [decode_addReg h hf]; exact and_immFlag_mask (p := 0x1000) h hf (by decide)
    · rw [decode_addImm h hf]; exact and_immFlag_mask (p := 0x1020) h hf (by decide)
  case and =>
    rcases hf : immFlagOf w
    · rw [decode_andReg h hf]; exact and_immFlag_mask (p := 0x5000) h hf (by decide)
    · rw [decode_andImm h hf]; exact and_immFlag_mask (p := 0x5020) h hf (by decide)
  case jsr =>
    rcases hf : longFlagOf w
    · rw [decode_jsrr h hf]; exact and_longFlag_mask (p := 0x4000) h hf (by decide)
    · rw [decode_jsr h hf]; exact and_longFlag_mask (p := 0x4800) h hf (by decide)
  case trap => rw [decode_trap h]; exact trapOf_and_mask h

/-- Settles O2: the tag, and the flag or the vector where the row has one, are what the decoder went by. -/
theorem everyWordMatchesTheRowItDecodesTo : Obligations.EveryWordMatchesTheRowItDecodesTo :=
  fun w => ⟨decode_wf w, decode_and_mask w⟩

/-- Settles O1, by running the decoder on the twenty-one words. -/
theorem specWordsDecodeAsNamed : Obligations.SpecWordsDecodeAsNamed := by
  unfold Obligations.SpecWordsDecodeAsNamed
  decide

end Sys2Proof
end

section
/-! The sign-extended fields and the addresses made with them (spec/30_encoding.md R58,
spec/42_load_store.md R78). -/

namespace Sys2Proof.Machine

/-- R12's extension keeps the signed value of a field. -/
theorem sext16_toInt {n : Nat} (h1 : 1 ≤ n) (h2 : n < 16) (f : BitVec n) : (sext16 f).toInt = f.toInt := by
  rw [sext16_eq_signExtend h1 h2, BitVec.toInt_signExtend_of_le (by omega)]

/-- Truncation undoes the extension. -/
theorem setWidth_sext16 {n : Nat} (h1 : 1 ≤ n) (h2 : n < 16) (f : BitVec n) : (sext16 f).setWidth n = f := by
  apply BitVec.eq_of_getLsbD_eq
  intro i hi
  rw [BitVec.getLsbD_setWidth, getLsbD_sext16 h1 h2 f (by omega), if_pos hi]
  simp [hi]

/-- A field with its sign bit set extends to a word with its high bit set. -/
theorem le_sext16_toNat {n : Nat} (h1 : 1 ≤ n) (h2 : n < 16) {f : BitVec n} (hf : f.getLsbD (n - 1) = true) :
    0x8000 ≤ (sext16 f).toNat := by
  have hmsb : (sext16 f).msb = true := by
    rw [BitVec.msb_eq_getLsbD_last, getLsbD_sext16 h1 h2 f (by decide), if_neg (by omega), hf]
  rw [BitVec.msb_eq_decide, decide_eq_true_eq] at hmsb
  exact hmsb

/-- The extension of a field lies in the field's own range. -/
theorem sext16_toInt_bounds {n : Nat} (h1 : 1 ≤ n) (h2 : n < 16) (f : BitVec n) :
    -2 ^ (n - 1) ≤ (sext16 f).toInt ∧ (sext16 f).toInt ≤ 2 ^ (n - 1) - 1 := by
  rw [sext16_toInt h1 h2]
  exact ⟨BitVec.le_toInt f, Int.le_sub_one_of_lt (BitVec.toInt_lt)⟩

/-- Settles O7: two's-complement extension, at the four widths and in general. -/
theorem signExtendedFieldsHaveTheirRanges : Obligations.SignExtendedFieldsHaveTheirRanges :=
  ⟨sext16_toInt_bounds (by decide) (by decide), sext16_toInt_bounds (by decide) (by decide),
    sext16_toInt_bounds (by decide) (by decide), sext16_toInt_bounds (by decide) (by decide),
    fun _ h1 h2 f => ⟨sext16_toInt h1 h2 f, setWidth_sext16 h1 h2 f, le_sext16_toNat h1 h2⟩⟩

/-- Settles O8: both sums are those of a base and an extended field, and the pointer's read polls at most,
which writes no register. -/
theorem effectiveAddressesAreSignedSums : Obligations.EffectiveAddressesAreSignedSums :=
  fun s off9 baseR off6 => ⟨s.isSum_eaPcRel off9, s.isSum_eaBase baseR off6, rfl,
    fun r => s.memRead_reg (s.eaPcRel off9) r⟩

end Sys2Proof.Machine
end

section
/-! The terminal's input and the keyboard words (spec/10_state.md R28, spec/20_memory.md R33, R34, R39,
spec/43_trap.md R86). -/

namespace Sys2Proof.Machine

/-! ### The input byte by byte -/

/-- The next key is the first byte of the input. -/
theorem Terminal.nextKey_eq_byteAt (t : Terminal) : t.nextKey = t.byteAt 0 := by
  obtain ⟨input, e, polls, drawn, out, fl⟩ := t
  rcases input with _ | ⟨b, bs⟩
  · rcases e with _ | _ | n <;> rfl
  · rfl

theorem Terminal.byteAt_of_getElem? {t : Terminal} {i : Nat} {b : Byte} (h : t.input[i]? = some b) :
    t.byteAt i = some b := by
  simp [Terminal.byteAt, h]

/-- Past the listed bytes a finite input has none. -/
theorem Terminal.byteAt_of_length_le {t : Terminal} {i : Nat} (h : t.input.length ≤ i)
    (he : t.inputEnd = .eof ∨ t.inputEnd = .stall) : t.byteAt i = none := by
  have hi : t.input[i]? = none := List.getElem?_eq_none h
  rcases he with he | he <;> simp [Terminal.byteAt, hi, he]

/-- Past the listed bytes an infinite input goes on with the free ones (log 13). -/
theorem Terminal.byteAt_endless {t : Terminal} {i next : Nat} (h : t.input.length ≤ i)
    (he : t.inputEnd = .endless next) :
    t.byteAt i = some (Config.endlessByte (next + (i - t.input.length))) := by
  have hi : t.input[i]? = none := List.getElem?_eq_none h
  simp [Terminal.byteAt, hi, he]

/-- An input without a next byte has no listed bytes. -/
theorem Terminal.input_eq_nil {t : Terminal} (h : t.nextKey = none) : t.input = [] := by
  rcases t.input_cases with ⟨b, hb⟩ | ⟨hi, -⟩ | ⟨hi, -⟩
  · rw [hb] at h; exact absurd h (Option.some_ne_none b)
  · exact hi
  · exact hi

theorem Terminal.kbdRead_eof {t : Terminal} (h : t.input = []) (he : t.inputEnd = .eof) :
    t.kbdRead = (.eof, t) := by
  simp [Terminal.kbdRead, h, he]

theorem Terminal.kbdRead_stall {t : Terminal} (h : t.input = []) (he : t.inputEnd = .stall) :
    t.kbdRead = (.stall, t) := by
  simp [Terminal.kbdRead, h, he]

/-- Settles O60: KbdRead by the three things an input can be, the input as a sequence by its listed bytes
and what follows them. -/
theorem kbdReadTakesTheInputInOrder : Obligations.KbdReadTakesTheInputInOrder := by
  intro t
  have hnil : t.byteAt 0 = none → t.input = [] := fun h => Terminal.input_eq_nil (t.nextKey_eq_byteAt.trans h)
  exact ⟨t.nextKey_eq_byteAt, t.consumed_dropKey,
    ⟨t.dropKey_output, t.dropKey_flushed, t.dropKey_polls, t.dropKey_drawn⟩,
    fun _ h => Terminal.kbdRead_byte (t.nextKey_eq_byteAt.trans h),
    fun h he => Terminal.kbdRead_eof (hnil h) he,
    fun h he => Terminal.kbdRead_stall (hnil h) he,
    fun _ _ => Terminal.byteAt_of_getElem?,
    fun _ hi => ⟨Terminal.byteAt_of_length_le hi, fun _ => Terminal.byteAt_endless hi⟩⟩

/-! ### The poll's answers -/

/-- The draw decides a poll while the input has a next byte. -/
theorem Terminal.kbdPoll_drawn_true {t : Terminal} {b : Byte} (h : t.nextKey = some b) :
    ({ t with polls := true :: t.polls } : Terminal).kbdPoll.1 = some b := by
  have h' : ({ t with polls := true :: t.polls } : Terminal).nextKey = some b := h
  simp [Terminal.kbdPoll, h', Terminal.keyPending]

theorem Terminal.kbdPoll_drawn_false (t : Terminal) :
    ({ t with polls := false :: t.polls } : Terminal).kbdPoll.1 = none := by
  rcases Terminal.kbdPoll_cases { t with polls := false :: t.polls } with ⟨b, hp, -, -⟩ | ⟨-, h⟩
  · exact absurd hp Bool.false_ne_true
  · rw [h]

/-- Without a next byte a poll answers none, whatever it draws. -/
theorem Terminal.kbdPoll_none_of_nextKey {t : Terminal} (h : t.nextKey = none) :
    t.kbdPoll = (none, t.dropDraw) := by
  simp [Terminal.kbdPoll, h]

/-- Settles O26: the two cases of a poll, and either case drawn. -/
theorem pollAnswersAreTheAllowedDraws : Obligations.PollAnswersAreTheAllowedDraws := by
  intro t
  refine ⟨fun b hb => ?key, fun hnone => ?nokey, fun h => ?atEnd, fun b h => ?drawn, t.kbdPoll_drawn_false,
    t.kbdPoll_output, t.kbdPoll_flushed⟩
  case key =>
    rcases t.kbdPoll_cases with ⟨b', -, hkey, hpoll⟩ | ⟨-, hpoll⟩ <;> rw [hpoll] at hb ⊢
    · obtain rfl : b' = b := Option.some.inj hb
      exact ⟨t.nextKey_eq_byteAt ▸ hkey, t.consumed_dropDraw.trans (Terminal.consumed_dropKey _)⟩
    · exact absurd hb.symm (Option.some_ne_none b)
  case nokey =>
    rcases t.kbdPoll_cases with ⟨b', -, -, hpoll⟩ | ⟨-, hpoll⟩ <;> rw [hpoll] at hnone ⊢
    · exact absurd hnone (Option.some_ne_none b')
    · exact t.consumed_dropDraw
  case atEnd => rw [Terminal.kbdPoll_none_of_nextKey (t.nextKey_eq_byteAt.trans h)]
  case drawn => exact Terminal.kbdPoll_drawn_true (t.nextKey_eq_byteAt.trans h)

/-! ### The keyboard words after a poll -/

section Poll
variable {s : State} (hwf : s.cfg.wf)
include hwf

/-- A poll that takes a key leaves the status 0x8000 and the key as data (R33, D12). -/
theorem State.poll_key_words {b : Byte} (h : s.term.kbdPoll.1 = some b) :
    s.poll.mem.read s.cfg.kbsrAddr = 0x8000 ∧ s.poll.mem.read s.cfg.kbdrAddr = zext16 b := by
  rw [State.poll_some (Prod.ext h rfl)]
  exact ⟨(Memory.read_write_ne _ _ hwf).trans (Memory.read_write_same ..), Memory.read_write_same ..⟩

/-- A poll that takes none leaves the status 0 and the data word as it was (R33, D12). -/
theorem State.poll_nokey_words (h : s.term.kbdPoll.1 = none) :
    s.poll.mem.read s.cfg.kbsrAddr = 0 ∧ s.poll.mem.read s.cfg.kbdrAddr = s.mem.read s.cfg.kbdrAddr := by
  rw [State.poll_none (Prod.ext h rfl)]
  exact ⟨s.mem.read_write_same s.cfg.kbsrAddr 0, s.mem.read_write_ne 0 hwf.symm⟩

end Poll

@[simp] theorem State.poll_term (s : State) : s.poll.term = s.term.kbdPoll.2 := by
  rcases h : s.term.kbdPoll with ⟨_ | b, t⟩
  · rw [State.poll_none h]
  · rw [State.poll_some h]

theorem State.Polled.keepsControl_self {s t : State} (h : s.Polled t) : KeepsControl s t :=
  ⟨h.cfg, h.ir, h.run, h.activity⟩

/-- Settles O25: a read of KBSR_ADDR is a poll and then the status word; the words by the poll's answer,
the rest by what polls keep. -/
theorem pollUpdatesTheKeyboardWords : Obligations.PollUpdatesTheKeyboardWords := by
  intro s hwf
  have hp := s.polled_poll
  rw [State.memRead_kbsr]
  refine ⟨⟨fun r _ => hp.reg r, hp.pc, hp.cond, hp.keepsControl_self, s.poll_term, hp.memory⟩,
    fun b hb => ?key, fun hnone => ?nokey⟩
  case key =>
    obtain ⟨hstatus, hdata⟩ := State.poll_key_words hwf hb
    exact ⟨hstatus, hstatus, hdata ▸ zext16_byte_toNat b⟩
  case nokey =>
    obtain ⟨hstatus, hdata⟩ := State.poll_nokey_words hwf hnone
    exact ⟨hstatus, hstatus, hdata⟩

/-- Settles O27: each of the two reads is a poll that takes no key. -/
theorem repeatedStatusReadsWithoutAKeyGiveZero : Obligations.RepeatedStatusReadsWithoutAKeyGiveZero := by
  intro s hwf first second h1 h2
  have hcfg : first.2.cfg = s.cfg := s.memRead_cfg _
  have hfirst : first = (s.poll.mem.read s.cfg.kbsrAddr, s.poll) := s.memRead_kbsr
  have hsecond : second = (first.2.poll.mem.read s.cfg.kbsrAddr, first.2.poll) := by
    simpa [second, hcfg] using first.2.memRead_kbsr
  obtain ⟨hstatus1, hdata1⟩ := State.poll_nokey_words hwf h1
  obtain ⟨hstatus2, hdata2⟩ := State.poll_nokey_words (hcfg ▸ hwf) h2
  rw [hcfg] at hstatus2 hdata2
  rw [hsecond]
  refine ⟨hfirst ▸ hstatus1, hstatus2, hdata2.trans ?_⟩
  rw [hfirst]
  exact hdata1

end Sys2Proof.Machine
end

section
/-! Everything one instruction can do, once (spec/30_encoding.md R63, R64): every instruction has a next
state, and that state is one of six effects; a trap routine's work is one of five. The statements about
every instruction are read off these cases. -/

namespace Sys2Proof.Machine

/-! ### The effect of each instruction -/

section Exec
variable (s : State)

theorem exec_br (nzp : BitVec 3) (off9 : BitVec 9) : exec (.br nzp off9) s =
    .next { s with pc := if s.cond.matches nzp then s.pc + sext16 off9 else s.pc } := by
  change Host.Outcome.next _ = _
  split <;> rfl

theorem exec_jsrr (baseR : RegIdx) : exec (.jsrr baseR) s = .next { s.link with pc := s.link.reg baseR } := rfl

theorem exec_trapGetc : exec .trapGetc s = .next s.link.getcRead := rfl
theorem exec_trapIn : exec .trapIn s = .next s.link.inRoutine := rfl
theorem exec_trapHalt : exec .trapHalt s = .next s.link.haltRoutine := rfl
theorem exec_rti : exec .rti s = .next (s.abort .illegalOpcodeRti) := rfl
theorem exec_res : exec .res s = .next (s.abort .illegalOpcodeRes) := rfl

theorem exec_stringTrap (k : StringKind) : exec k.trap s = .next (s.link.stringRoutine k) := by
  cases k <;> rfl

/-- TRAP runs the routine its vector selects, whatever constructor the vector stands in (R88). -/
theorem exec_trap_eq_trapOf (v : Byte) : exec (.trap v) s = exec (trapOf v) s := by
  rcases hv : definedVector v
  · rw [trapOf_of_undefined hv]
  · rcases definedVector_cases hv with rfl | rfl | rfl | rfl | rfl | rfl <;> rfl

theorem exec_trap_undefined {v : Byte} (hv : definedVector v = false) :
    exec (.trap v) s = .next s.link.undefRoutine := by
  have hn : ∀ k : Byte, definedVector k = true → v ≠ k := by
    rintro k hk rfl
    exact Bool.false_ne_true (hv.symm.trans hk)
  change execTrap v s = _
  rw [execTrap, if_neg (hn _ rfl), if_neg (hn _ rfl), if_neg (hn _ rfl), if_neg (hn _ rfl), if_neg (hn _ rfl),
    if_neg (hn _ rfl)]

end Exec

/-! ### The key read of GETC and IN -/

theorem KeepsRegs.trans {ds es : List RegIdx} {s u t : State} (h : KeepsRegs ds s u) (k : KeepsRegs es u t) :
    KeepsRegs (ds ++ es) s t := fun r hr => by
  rw [List.mem_append, not_or] at hr
  exact (k r hr.2).trans (h r hr.1)

/-- A finished key read writes R0 only. -/
theorem State.keepsRegs_finishKey (s : State) (v : Word) : KeepsRegs [0] s (s.finishKey v) :=
  State.keepsRegs_writeResult _ 0 v

/-- A finished key read leaves COND reporting R0 (R89, R92). -/
theorem State.reports_finishKey (s : State) (v : Word) :
    (s.finishKey v).cond.Reports ((s.finishKey v).reg 0) :=
  State.reports_writeResult _ 0 v

/-- What the key read of GETC or IN keeps, and how it can end: out of the routine with R0 reported, or
waiting in it. -/
structure State.KeyRead (k : KeyKind) (s t : State) : Prop where
  served : s.Served t
  regs : KeepsRegs [0] s t
  run : t.run = s.run
  flushed : s.term.flushed = s.term.output.length → t.term.flushed = t.term.output.length
  outcome : (t.activity = .idle ∧ t.cond.Reports (t.reg 0)) ∨ (t.activity = .wait k ∧ t.cond = s.cond)

theorem State.keyRead_getcRead (s : State) : State.KeyRead .getc s s.getcRead := by
  have hserved := s.served_getcRead
  rcases s.term.input_cases with ⟨b, h⟩ | ⟨h, he⟩ | ⟨h, he⟩
  · rw [State.getcRead_byte h] at hserved ⊢
    exact ⟨hserved, State.keepsRegs_finishKey _ _, rfl, fun hf => by simpa using hf,
      .inl ⟨rfl, State.reports_finishKey _ _⟩⟩
  · rw [State.getcRead_eof h he] at hserved ⊢
    exact ⟨hserved, s.keepsRegs_finishKey _, rfl, id, .inl ⟨rfl, s.reports_finishKey _⟩⟩
  · rw [State.getcRead_stall h he] at hserved ⊢
    exact ⟨hserved, fun _ _ => rfl, rfl, id, .inr ⟨rfl, rfl⟩⟩

theorem State.keyRead_inRead (s : State) : State.KeyRead .inKey s s.inRead := by
  have hserved := s.served_inRead
  rcases s.term.input_cases with ⟨b, h⟩ | ⟨h, he⟩ | ⟨h, he⟩
  · rw [State.inRead_byte h] at hserved ⊢
    exact ⟨hserved, State.keepsRegs_finishKey _ _, rfl, fun _ => rfl, .inl ⟨rfl, State.reports_finishKey _ _⟩⟩
  · rw [State.inRead_eof h he] at hserved ⊢
    exact ⟨hserved, s.ttyFlush.keepsRegs_finishKey _, rfl, fun _ => rfl, .inl ⟨rfl, s.ttyFlush.reports_finishKey _⟩⟩
  · rw [State.inRead_stall h he] at hserved ⊢
    exact ⟨hserved, fun _ _ => rfl, rfl, id, .inr ⟨rfl, rfl⟩⟩

/-- IN's prompt is out and flushed before its key read. -/
theorem State.keyRead_inRoutine (s : State) : State.KeyRead .inKey s s.inRoutine := by
  obtain ⟨hserved, hregs, hrun, hflushed, houtcome⟩ := (s.ttyWrite s.cfg.inPrompt).ttyFlush.keyRead_inRead
  exact ⟨((s.served_ttyWrite _).trans (State.served_ttyFlush _)).trans hserved, hregs, hrun,
    fun _ => hflushed rfl, houtcome⟩

/-! ### The trap routines -/

/-- What a trap routine's work leaves, from the state after the link. -/
inductive Routine : Instr → State → State → Prop where
  | key {k : KeyKind} {s t : State} : State.KeyRead k s t → Routine k.trap s t
  | scan {k : StringKind} {s t : State} : State.Scanned k s t → Routine k.trap s t
  | out (s : State) : Routine .trapOut s s.outRoutine
  | halt (s : State) : Routine .trapHalt s s.haltRoutine
  | undef {v : Byte} (s : State) : definedVector v = false → Routine (.trap v) s s.undefRoutine

/-- An undefined vector aborts or does nothing, by the policy (R95). -/
theorem State.undefRoutine_cases (s : State) :
    (s.cfg.undefTrapPolicy = .fatal ∧ s.undefRoutine = s.abort .undefinedTrap) ∨
    (s.cfg.undefTrapPolicy = .noop ∧ s.undefRoutine = s) := by
  unfold State.undefRoutine
  rcases h : s.cfg.undefTrapPolicy
  · exact .inl ⟨rfl, rfl⟩
  · exact .inr ⟨rfl, rfl⟩

theorem Routine.served {i : Instr} {s t : State} (h : Routine i s t) : s.Served t := by
  cases h with
  | key h => exact h.served
  | scan h => exact h.served
  | out => exact (s.served_ttyWrite _).trans (State.served_ttyFlush _)
  | halt => exact ((s.served_ttyWrite _).trans (State.served_ttyFlush _)).trans (State.served_halt _)
  | undef _ _ =>
    rcases s.undefRoutine_cases with ⟨-, h⟩ | ⟨-, h⟩ <;> rw [h]
    · exact s.served_abort _
    · exact .refl s

/-! ### The six effects -/

/-- An instruction's row of R16's table: the registers it writes, whether it links, the register whose new
value COND reports. -/
def HasRow (i : Instr) (writes : List RegIdx) (links : Bool) (flagged : Option RegIdx) : Prop :=
  i.writes = writes ∧ i.links = links ∧ i.flagged = flagged

/-- What executing an instruction leaves, from the state before. -/
inductive Effect : Instr → State → State → Prop where
  /-- The reads poll at most; a result and its flags are written. -/
  | result {i : Instr} {s u : State} {dr : RegIdx} {v : Word} :
      HasRow i [dr] false (some dr) → s.Polled u → Effect i s (u.writeResult dr v)
  /-- The pointer read polls at most; one word is written. -/
  | store {i : Instr} {s u : State} {a v : Word} :
      HasRow i [] false none → s.storeAddress i = some a → s.Polled u →
      Effect i s (u.memWrite a v)
  /-- PC alone is written. -/
  | jump {i : Instr} {s : State} {target : Word} :
      HasRow i [] false none → i.transfersControl = true →
      Effect i s { s with pc := target }
  /-- The link and PC are written. -/
  | linkedJump {i : Instr} {s : State} {target : Word} :
      HasRow i [7] true none → i.transfersControl = true →
      Effect i s { s.link with pc := target }
  /-- The engine aborts. -/
  | abort {i : Instr} {s : State} {c : AbortCause} :
      HasRow i [] false none → c.raisedBy s.cfg i → Effect i s (s.abort c)
  /-- The link is written, then a routine runs. -/
  | routine {i : Instr} {s t : State} : Routine i s.link t → Effect i s t

/-- Every instruction that a word decodes to has a next state, which is one of the six effects. -/
theorem exec_effect {i : Instr} (hwf : i.wf = true) (s : State) : ∃ t, exec i s = .next t ∧ Effect i s t :=
  match i with
  | .addReg _ _ _ => ⟨_, exec_addReg .., .result ⟨rfl, rfl, rfl⟩ (.refl s)⟩
  | .addImm _ _ _ => ⟨_, exec_addImm .., .result ⟨rfl, rfl, rfl⟩ (.refl s)⟩
  | .andReg _ _ _ => ⟨_, exec_andReg .., .result ⟨rfl, rfl, rfl⟩ (.refl s)⟩
  | .andImm _ _ _ => ⟨_, exec_andImm .., .result ⟨rfl, rfl, rfl⟩ (.refl s)⟩
  | .not _ _ => ⟨_, exec_not .., .result ⟨rfl, rfl, rfl⟩ (.refl s)⟩
  | .br _ _ => ⟨_, exec_br .., .jump ⟨rfl, rfl, rfl⟩ rfl⟩
  | .jmp _ => ⟨_, exec_jmp .., .jump ⟨rfl, rfl, rfl⟩ rfl⟩
  | .jsr _ => ⟨_, exec_jsr .., .linkedJump ⟨rfl, rfl, rfl⟩ rfl⟩
  | .jsrr _ => ⟨_, exec_jsrr .., .linkedJump ⟨rfl, rfl, rfl⟩ rfl⟩
  | .ld _ _ => ⟨_, exec_ld .., .result ⟨rfl, rfl, rfl⟩ (s.polled_memRead _)⟩
  | .ldi _ _ => ⟨_, exec_ldi .., .result ⟨rfl, rfl, rfl⟩ ((s.polled_memRead _).trans (State.polled_memRead _ _))⟩
  | .ldr _ _ _ => ⟨_, exec_ldr .., .result ⟨rfl, rfl, rfl⟩ (s.polled_memRead _)⟩
  | .lea _ _ => ⟨_, exec_lea .., .result ⟨rfl, rfl, rfl⟩ (.refl s)⟩
  | .st _ _ => ⟨_, exec_st .., .store ⟨rfl, rfl, rfl⟩ rfl (.refl s)⟩
  | .sti _ _ => ⟨_, exec_sti .., .store ⟨rfl, rfl, rfl⟩ rfl (s.polled_memRead _)⟩
  | .str _ _ _ => ⟨_, exec_str .., .store ⟨rfl, rfl, rfl⟩ rfl (.refl s)⟩
  | .trap v =>
    have hv : definedVector v = false := by simpa [Instr.wf] using hwf
    ⟨_, exec_trap_undefined s hv, .routine (.undef _ hv)⟩
  | .trapGetc => ⟨_, exec_trapGetc s, .routine (.key (k := .getc) (State.keyRead_getcRead _))⟩
  | .trapOut => ⟨_, exec_trapOut s, .routine (.out _)⟩
  | .trapPuts => ⟨_, exec_stringTrap s .puts, .routine (.scan (k := .puts) (State.scanned_scanFrom ..))⟩
  | .trapIn => ⟨_, exec_trapIn s, .routine (.key (k := .inKey) (State.keyRead_inRoutine _))⟩
  | .trapPutsp => ⟨_, exec_stringTrap s .putsp, .routine (.scan (k := .putsp) (State.scanned_scanFrom ..))⟩
  | .trapHalt => ⟨_, exec_trapHalt s, .routine (.halt _)⟩
  | .rti => ⟨_, exec_rti s, .abort ⟨rfl, rfl, rfl⟩ rfl⟩
  | .res => ⟨_, exec_res s, .abort ⟨rfl, rfl, rfl⟩ rfl⟩

theorem effect_of_exec {i : Instr} {s t : State} (hwf : i.wf = true) (h : exec i s = .next t) :
    Effect i s t := by
  obtain ⟨u, hu, heffect⟩ := exec_effect hwf s
  obtain rfl : u = t := Host.Outcome.next.inj (hu.symm.trans h)
  exact heffect

/-- The one term that stands for no word is TRAP with a routine's vector. -/
theorem exists_trap_of_not_wf {i : Instr} (h : i.wf = false) : ∃ v, i = .trap v ∧ definedVector v = true := by
  cases i with
  | trap v => exact ⟨v, rfl, by simpa [Instr.wf] using h⟩
  | _ => exact absurd h (by simp [Instr.wf])

/-- TRAP with a routine's vector executes as the routine's own constructor, so every instruction executes as
a well-formed one: itself, or one that neither writes PC nor stores. -/
theorem exists_wf_exec_eq (i : Instr) : ∃ j : Instr, j.wf = true ∧ (j = i ∨ j.transfersControl = false) ∧
    (∀ s : State, s.storeAddress j = s.storeAddress i) ∧ ∀ s : State, exec j s = exec i s := by
  rcases hwf : i.wf
  case true => exact ⟨i, hwf, .inl rfl, fun _ => rfl, fun _ => rfl⟩
  case false =>
    obtain ⟨v, rfl, hv⟩ := exists_trap_of_not_wf hwf
    have hrow : (trapOf v).wf = true ∧ (trapOf v).transfersControl = false ∧
        ∀ s : State, s.storeAddress (trapOf v) = none := by
      rcases definedVector_cases hv with rfl | rfl | rfl | rfl | rfl | rfl <;> exact ⟨rfl, rfl, fun _ => rfl⟩
    obtain ⟨hwf, hjump, hstore⟩ := hrow
    exact ⟨trapOf v, hwf, .inr hjump, hstore, fun s => (exec_trap_eq_trapOf s v).symm⟩

end Sys2Proof.Machine
end

section
/-! What every instruction and every step keeps (spec/10_state.md R16, R18, R22, spec/20_memory.md R42,
spec/30_encoding.md R63): read off the effects of the section before. -/

namespace Sys2Proof.Machine

/-! ### Registers, flags and PC -/

theorem KeepsRegs.of_regs_eq {s t : State} (h : t.regs = s.regs) (ds : List RegIdx) : KeepsRegs ds s t :=
  fun r _ => State.reg_congr h r

/-- What a row of R16's table says of the state before and the state after. -/
def FollowsRow (writes : List RegIdx) (links : Bool) (flagged : Option RegIdx) (s t : State) : Prop :=
  KeepsRegs writes s t ∧ (links = true → t.reg 7 = s.pc) ∧ (flagged = none → t.cond = s.cond) ∧
    ∀ r, flagged = some r → t.activity = .idle → t.cond.Reports (t.reg r)

theorem HasRow.follows {i : Instr} {writes : List RegIdx} {links : Bool} {flagged : Option RegIdx} {s t : State}
    (hrow : HasRow i writes links flagged) (h : FollowsRow writes links flagged s t) :
    FollowsRow i.writes i.links i.flagged s t := by
  obtain ⟨rfl, rfl, rfl⟩ := hrow
  exact h

theorem KeyKind.trap_row (k : KeyKind) : HasRow k.trap [7, 0] true (some 0) := by
  cases k <;> exact ⟨rfl, rfl, rfl⟩

theorem StringKind.trap_row (k : StringKind) : HasRow k.trap [7] true none := by
  cases k <;> exact ⟨rfl, rfl, rfl⟩

/-- A routine is that of a key read, which may write R0 and the flags, or of a TRAP that writes neither. -/
theorem Routine.row {i : Instr} {s t : State} (h : Routine i s t) :
    (HasRow i [7, 0] true (some 0) ∧ KeepsRegs [0] s t ∧ (t.activity = .idle → t.cond.Reports (t.reg 0))) ∨
    (HasRow i [7] true none ∧ t.regs = s.regs ∧ t.cond = s.cond) := by
  cases h with
  | key h =>
    refine .inl ⟨KeyKind.trap_row _, h.regs, fun hidle => ?_⟩
    rcases h.outcome with ⟨-, hreports⟩ | ⟨hwait, -⟩
    · exact hreports
    · exact nomatch hidle.symm.trans hwait
  | scan h => exact .inr ⟨StringKind.trap_row _, h.regs, h.cond⟩
  | out => exact .inr ⟨⟨rfl, rfl, rfl⟩, rfl, rfl⟩
  | halt => exact .inr ⟨⟨rfl, rfl, rfl⟩, rfl, rfl⟩
  | undef _ _ =>
    rcases s.undefRoutine_cases with ⟨-, h⟩ | ⟨-, h⟩ <;> rw [h] <;> exact .inr ⟨⟨rfl, rfl, rfl⟩, rfl, rfl⟩

/-- An instruction writes the registers and the flags of its row of R16's table. -/
theorem Effect.row {i : Instr} {s t : State} (h : Effect i s t) : FollowsRow i.writes i.links i.flagged s t := by
  cases h with
  | @result u dr v hrow hpolled =>
    refine hrow.follows ⟨hpolled.keepsRegs (u.keepsRegs_writeResult dr v), nofun, nofun, fun r hr _ => ?_⟩
    obtain rfl := Option.some.inj hr
    exact u.reports_writeResult dr v
  | @store u a v hrow _ hpolled =>
    exact hrow.follows ⟨hpolled.keepsRegs (u.keepsRegs_memWrite a v), nofun, fun _ => hpolled.cond, nofun⟩
  | jump hrow _ => exact hrow.follows ⟨fun _ _ => rfl, nofun, fun _ => rfl, nofun⟩
  | linkedJump hrow _ => exact hrow.follows ⟨s.keepsRegs_link, fun _ => s.reg_link_same, fun _ => rfl, nofun⟩
  | abort hrow _ => exact hrow.follows ⟨fun _ _ => rfl, nofun, fun _ => rfl, nofun⟩
  | routine hroutine =>
    rcases hroutine.row with ⟨hrow, hregs, hreports⟩ | ⟨hrow, hregs, hcond⟩
    · refine hrow.follows ⟨s.keepsRegs_link.trans hregs, fun _ => (hregs 7 (by decide)).trans s.reg_link_same,
        nofun, fun r hr => ?_⟩
      obtain rfl := Option.some.inj hr
      exact hreports
    · exact hrow.follows ⟨s.keepsRegs_link.trans (.of_regs_eq hregs []),
        fun _ => (State.reg_congr hregs 7).trans s.reg_link_same, fun _ => hcond, nofun⟩

/-- Settles O19, from the row of each effect. -/
theorem registersAndFlagsAreWrittenAsTabled : Obligations.RegistersAndFlagsAreWrittenAsTabled :=
  fun _ _ _ hwf h => (effect_of_exec hwf h).row

/-- Only a control transfer writes PC. -/
theorem Effect.pc {i : Instr} {s t : State} (h : Effect i s t) (hi : i.transfersControl = false) :
    t.pc = s.pc := by
  cases h with
  | result _ hpolled => exact hpolled.pc
  | store _ _ hpolled => exact hpolled.pc
  | jump _ hjump => exact absurd (hi.symm.trans hjump) Bool.false_ne_true
  | linkedJump _ hjump => exact absurd (hi.symm.trans hjump) Bool.false_ne_true
  | abort => rfl
  | routine h => exact h.served.pc

/-- Settles O18: the two effects that write PC are those of the control transfers, and a routine that goes
on leaves PC. -/
theorem onlyControlTransfersWritePc : Obligations.OnlyControlTransfersWritePc := by
  refine ⟨fun i s t hi h => ?_, fun s t hr ha h => ?_⟩
  · obtain ⟨j, hwf, hjump, -, hexec⟩ := exists_wf_exec_eq i
    have hj : j.transfersControl = false := hjump.elim (fun hji => hji ▸ hi) id
    exact (effect_of_exec hwf ((hexec s).trans h)).pc hj
  · rw [step_resume hr ha] at h
    obtain rfl := Host.Outcome.next.inj h
    exact s.served_resume.pc

/-! ### Memory -/

/-- Away from the keyboard words an instruction writes no word but the one it stores. -/
theorem Effect.memory {i : Instr} {s t : State} (h : Effect i s t) {a : Word} (h1 : a ≠ s.cfg.kbsrAddr)
    (h2 : a ≠ s.cfg.kbdrAddr) (hi : s.storeAddress i ≠ some a) : t.mem.read a = s.mem.read a := by
  cases h with
  | result _ hpolled => exact hpolled.memory a h1 h2
  | store _ hstore hpolled =>
    refine (Memory.read_write_ne _ _ fun ha => hi ?_).trans (hpolled.memory a h1 h2)
    rw [hstore, ha]
  | jump => rfl
  | linkedJump => rfl
  | abort => rfl
  | routine h => exact h.served.memory a h1 h2

/-- Settles O21: polls write the two keyboard words, a store its own address, and nothing else writes. -/
theorem memoryChangesOnlyByStoresAndPolls : Obligations.MemoryChangesOnlyByStoresAndPolls := by
  intro i s t a h h1 h2 hi
  obtain ⟨j, hwf, -, hstore, hexec⟩ := exists_wf_exec_eq i
  exact (effect_of_exec hwf ((hexec s).trans h)).memory h1 h2 (hstore s ▸ hi)

/-! ### The terminal and the parameters -/

/-- `t` has consumed input of `s` from its front, has appended output, and has the same parameters. -/
structure State.Extends (s t : State) : Prop where
  input : ∃ n, s.term.Consumed n t.term
  output : ∃ new, t.term.output = s.term.output ++ new
  cfg : t.cfg = s.cfg

theorem State.Extends.of_eq {s t : State} (hterm : t.term = s.term) (hcfg : t.cfg = s.cfg) : s.Extends t :=
  ⟨⟨0, .of_eq (by rw [hterm]) (by rw [hterm])⟩, ⟨[], by rw [hterm, List.append_nil]⟩, hcfg⟩

theorem State.Extends.trans {s t u : State} (h : s.Extends t) (k : t.Extends u) : s.Extends u where
  input := by
    obtain ⟨m, hm⟩ := h.input
    obtain ⟨n, hn⟩ := k.input
    exact ⟨_, hm.trans hn⟩
  output := by
    obtain ⟨x, hx⟩ := h.output
    obtain ⟨y, hy⟩ := k.output
    exact ⟨x ++ y, by rw [hy, hx, List.append_assoc]⟩
  cfg := k.cfg.trans h.cfg

theorem State.Served.toExtends {s t : State} (h : s.Served t) : s.Extends t := ⟨h.input, h.output, h.cfg⟩

theorem Effect.toExtends {i : Instr} {s t : State} (h : Effect i s t) : s.Extends t := by
  cases h with
  | result _ hpolled => exact hpolled.served.toExtends.trans (.of_eq rfl rfl)
  | store _ _ hpolled => exact hpolled.served.toExtends.trans (.of_eq rfl rfl)
  | jump => exact .of_eq rfl rfl
  | linkedJump => exact .of_eq rfl rfl
  | abort => exact .of_eq rfl rfl
  | routine h => exact s.served_link.toExtends.trans h.served.toExtends

theorem State.extends_fetch (s : State) : s.Extends s.fetch :=
  (s.polled_memRead s.pc).served.toExtends.trans (.of_eq rfl rfl)

/-- Settles O22: the three things a step can do, each of which only extends. -/
theorem stepConsumesInputAndAppendsOutput : Obligations.StepConsumesInputAndAppendsOutput := by
  intro s t h
  have hext : s.Extends t := by
    rcases step_cases h with ⟨-, rfl⟩ | ⟨-, -, rfl⟩ | ⟨-, -, h⟩
    · exact .of_eq rfl rfl
    · exact s.served_resume.toExtends
    · exact s.extends_fetch.trans (effect_of_exec (decode_wf _) h).toExtends
  exact ⟨hext.input, hext.output, hext.cfg⟩

/-! ### The step -/

/-- Settles O14: a stopped engine and a routine that goes on have one, and so has every instruction. -/
theorem everyStepHasANextState : Obligations.EveryStepHasANextState := by
  intro s
  by_cases hr : s.run = .running
  · by_cases ha : s.activity = .idle
    · obtain ⟨t, ht, -⟩ := exec_effect (decode_wf s.fetch.ir) s.fetch
      exact ⟨t, (step_running hr ha).trans ht⟩
    · exact ⟨_, step_resume hr ha⟩
  · exact ⟨s, step_stopped hr⟩

/-- Settles O13: the fetch is a MemRead at PC, plain away from KBSR_ADDR. -/
theorem stepExecutesTheFetchedInstruction : Obligations.StepExecutesTheFetchedInstruction :=
  fun s hr ha => ⟨step_running hr ha, BitVec.toNat_add s.pc 1, State.memRead_plain⟩

end Sys2Proof.Machine
end

section
/-! The run state and the invariant (spec/10_state.md R25 to R27, spec/43_trap.md R87, R88,
spec/60_exceptions.md R100 to R102, R114): how an engine stops, that it then stays as it is, and that
every step keeps the invariant. -/

namespace Sys2Proof.Machine

/-! ### Stops -/

/-- Settles O16: a step of a stopped engine answers the state it started from. -/
theorem stoppedMachineKeepsAllState : Obligations.StoppedMachineKeepsAllState := by
  intro n s t hstop h
  refine h.invariant (P := (· = s)) ?_ rfl
  rintro _ u rfl hu
  exact Host.Outcome.next.inj (hu.symm.trans (step_stopped hstop))

theorem State.stopped_abort (s : State) (c : AbortCause) : (s.abort c).stopped := nofun

/-- Settles O17: the abort's own fields, and then a stopped engine. -/
theorem abortRecordsTheInstructionAndStopsForGood : Obligations.AbortRecordsTheInstructionAndStopsForGood :=
  ⟨rfl, rfl, rfl, fun s c => ⟨s.abort_run c,
    ⟨fun r _ => s.reg_abort c r, s.abort_pc c, s.abort_cond c, s.abort_ir c, s.abort_cfg c, s.abort_activity c,
      fun _ => rfl, s.abort_term c⟩,
    fun n u h => stoppedMachineKeepsAllState n _ u (s.stopped_abort c) h⟩⟩

/-- An instruction leaves RUN, or is HALT and halts, or aborts with a cause that it raises and a record of
itself. -/
theorem Effect.run_cases {i : Instr} {s t : State} (h : Effect i s t) :
    t.run = s.run ∨ (i = .trapHalt ∧ t.run = .halted) ∨
      ∃ c : AbortCause, c.raisedBy s.cfg i ∧ t.run = .aborted c ⟨s.ir, s.pc - 1⟩ := by
  cases h with
  | result _ hpolled => exact .inl hpolled.run
  | store _ _ hpolled => exact .inl hpolled.run
  | jump => exact .inl rfl
  | linkedJump => exact .inl rfl
  | abort _ hraised => exact .inr (.inr ⟨_, hraised, rfl⟩)
  | routine h =>
    cases h with
    | key h => exact .inl h.run
    | scan h => exact .inl h.run
    | out => exact .inl rfl
    | halt => exact .inr (.inl ⟨rfl, rfl⟩)
    | @undef v _ hv =>
      rcases s.link.undefRoutine_cases with ⟨hpolicy, h⟩ | ⟨-, h⟩ <;> rw [h]
      · exact .inr (.inr ⟨.undefinedTrap, ⟨⟨v, rfl, hv⟩, hpolicy⟩, rfl⟩)
      · exact .inl rfl

/-- A routine that goes on keeps RUN. -/
theorem State.resume_run (s : State) : s.resume.run = s.run := by
  rcases s.resume_cases with ⟨-, h⟩ | ⟨k, a, -, h⟩ | ⟨-, h⟩ | ⟨-, h⟩ <;> rw [h]
  · exact (State.scanned_scanFrom ..).run
  · exact s.keyRead_getcRead.run
  · exact s.keyRead_inRead.run

/-- A step that stops a running engine has executed the word at PC. -/
theorem effect_of_step_stops {s t : State} (hr : s.run = .running) (h : step s = .next t) (ht : t.stopped) :
    s.activity = .idle ∧ Effect (decode (s.memRead s.pc).1) s.fetch t := by
  rcases step_cases h with ⟨hstop, -⟩ | ⟨-, -, rfl⟩ | ⟨-, ha, h⟩
  · exact absurd hr hstop
  · exact absurd (s.resume_run.trans hr) ht
  · exact ⟨ha, effect_of_exec (decode_wf _) h⟩

/-- Settles O15: only executing an instruction stops a running engine, and only HALT and the instructions
that abort change RUN. -/
theorem runStateChangesOnlyByHaltAndAborts : Obligations.RunStateChangesOnlyByHaltAndAborts := by
  refine ⟨fun _ => step_stopped, fun s t hr h ht => ?halted, fun s t cause info hr h ht => ?aborted⟩
  case halted =>
    obtain ⟨ha, heffect⟩ := effect_of_step_stops hr h (by simp [State.stopped, ht])
    refine ⟨ha, ?_⟩
    rcases heffect.run_cases with hrun | ⟨hi, -⟩ | ⟨c, -, hrun⟩
    · rw [ht, s.fetch_run, hr] at hrun; exact nomatch hrun
    · exact hi
    · rw [ht] at hrun; exact nomatch hrun
  case aborted =>
    obtain ⟨ha, heffect⟩ := effect_of_step_stops hr h (by simp [State.stopped, ht])
    refine ⟨ha, ?_⟩
    rcases heffect.run_cases with hrun | ⟨-, hrun⟩ | ⟨c, hraised, hrun⟩
    · rw [ht, s.fetch_run, hr] at hrun; exact nomatch hrun
    · rw [ht] at hrun; exact nomatch hrun
    · obtain ⟨rfl, rfl⟩ := RunState.aborted.inj (ht.symm.trans hrun)
      exact ⟨rfl, BitVec.add_sub_cancel s.pc 1, s.fetch_cfg ▸ hraised⟩

/-! ### The invariant -/

/-- A running engine has the invariant when its memory is canonical, its flush count is right, and an
unfinished routine is inside its own TRAP. -/
theorem State.Inv.of_running {s : State} (addresses : s.cfg.wf) (memory : s.mem.wf) (running : s.run = .running)
    (flushedLe : s.term.flushed ≤ s.term.output.length)
    (flushedAll : s.activity.scanning = false → s.term.flushed = s.term.output.length)
    (inTrap : ∀ i, s.activity.instr = some i → s.current = i ∧ s.reg 7 = s.pc) : s.Inv where
  addresses := addresses
  memory := memory
  stoppedIdle h := absurd running h
  flushedLe := flushedLe
  flushedAll := flushedAll
  inTrap := inTrap
  halted h := nomatch running.symm.trans h
  aborted _ _ h := nomatch running.symm.trans h

/-- Between two instructions, or within one that is not inside a routine: RUNNING, all output flushed. -/
structure State.Ready (s : State) : Prop where
  addresses : s.cfg.wf
  memory : s.mem.wf
  running : s.run = .running
  idle : s.activity = .idle
  flushed : s.term.flushed = s.term.output.length

theorem State.Ready.inv {s : State} (h : s.Ready) : s.Inv :=
  .of_running h.addresses h.memory h.running h.flushed.le (fun _ => h.flushed) (by simp [h.idle, Activity.instr])

theorem State.Inv.ready {s : State} (h : s.Inv) (running : s.run = .running) (idle : s.activity = .idle) :
    s.Ready :=
  ⟨h.addresses, h.memory, running, idle, h.flushedAll (by rw [idle]; rfl)⟩

theorem State.Polled.ready {s t : State} (h : s.Polled t) (hs : s.Ready) : t.Ready :=
  ⟨h.cfg ▸ hs.addresses, h.wf hs.memory, h.run.trans hs.running, h.activity.trans hs.idle,
    by rw [h.flushed, h.output, hs.flushed]⟩

/-- Inside the TRAP `i`, which has saved its link (R27, R88). -/
structure State.Serving (i : Instr) (s : State) : Prop where
  addresses : s.cfg.wf
  memory : s.mem.wf
  running : s.run = .running
  current : s.current = i
  link : s.reg 7 = s.pc

/-- The link of a TRAP between two instructions. -/
theorem State.Ready.serving_link {s : State} (h : s.Ready) : State.Serving s.current s.link :=
  ⟨h.addresses, h.memory, h.running, rfl, s.reg_link_same⟩

theorem State.Inv.serving {s : State} {i : Instr} (h : s.Inv) (running : s.run = .running)
    (hi : s.activity.instr = some i) : State.Serving i s :=
  ⟨h.addresses, h.memory, running, (h.inTrap i hi).1, (h.inTrap i hi).2⟩

/-- What a routine serves keeps the TRAP and its link, unless R7 is written. -/
theorem State.Served.serving {i : Instr} {s t : State} (h : s.Served t) (hs : State.Serving i s)
    (hrun : t.run = s.run) (hreg : t.reg 7 = s.reg 7) : State.Serving i t :=
  ⟨h.cfg ▸ hs.addresses, h.wf hs.memory, hrun.trans hs.running, (congrArg decode h.ir).trans hs.current,
    hreg.trans (hs.link.trans h.pc.symm)⟩

theorem State.Serving.inv {i : Instr} {s : State} (h : State.Serving i s)
    (flushedLe : s.term.flushed ≤ s.term.output.length)
    (flushedAll : s.activity.scanning = false → s.term.flushed = s.term.output.length)
    (inside : s.activity = .idle ∨ s.activity.instr = some i) : s.Inv := by
  refine .of_running h.addresses h.memory h.running flushedLe flushedAll fun j hj => ?_
  rcases inside with hidle | hi
  · rw [hidle] at hj; exact nomatch hj
  · obtain rfl := Option.some.inj (hi.symm.trans hj)
    exact ⟨h.current, h.link⟩

/-- A key read keeps the invariant: it flushes what it writes, and waits inside its own TRAP. -/
theorem State.KeyRead.inv {k : KeyKind} {s t : State} (h : State.KeyRead k s t) (hs : State.Serving k.trap s)
    (hflushed : s.term.flushed = s.term.output.length) : t.Inv := by
  have hf := h.flushed hflushed
  refine (h.served.serving hs h.run (h.regs 7 (by decide))).inv hf.le (fun _ => hf) ?_
  rcases h.outcome with ⟨hidle, -⟩ | ⟨hwait, -⟩
  · exact .inl hidle
  · exact .inr (by rw [hwait]; rfl)

/-- A scan keeps the invariant: it ends with all flushed, or owes a flush inside its own TRAP. -/
theorem State.Scanned.inv {k : StringKind} {s t : State} (h : State.Scanned k s t) (hs : State.Serving k.trap s)
    (hflushed : s.term.flushed ≤ s.term.output.length) : t.Inv := by
  have hserving := h.served.serving hs h.run (State.reg_congr h.regs 7)
  rcases h.outcome with ⟨hidle, hf⟩ | ⟨⟨a, hscan⟩, hf⟩
  · exact hserving.inv hf.le (fun _ => hf) (.inl hidle)
  · obtain ⟨new, hnew⟩ := h.served.output
    have hlength : s.term.output.length ≤ t.term.output.length := by
      rw [hnew, List.length_append]
      exact Nat.le_add_right ..
    refine hserving.inv (hf ▸ hflushed.trans hlength) (fun hno => ?_) (.inr ?_)
    · rw [hscan] at hno; exact nomatch hno
    · rw [hscan]; rfl

/-- A stopped engine has the invariant when it is inside no routine and RUN tells what stopped it. -/
theorem State.Ready.inv_stopped {s : State} (h : s.Ready) {run : RunState}
    (halted : run = .halted → s.current = .trapHalt ∧ s.reg 7 = s.pc)
    (aborted : ∀ cause info, run = .aborted cause info →
      info.word = s.ir ∧ info.addr + 1 = s.pc ∧ cause.raisedBy s.cfg (decode info.word)) :
    State.Inv { s with run := run } where
  addresses := h.addresses
  memory := h.memory
  stoppedIdle _ := h.idle
  flushedLe := h.flushed.le
  flushedAll _ := h.flushed
  inTrap _ hi := nomatch (congrArg Activity.instr h.idle).symm.trans hi
  halted := halted
  aborted := aborted

/-- The record of an abort names the instruction in IR and the address before PC (R100, R101). -/
theorem State.Ready.inv_abort {s : State} (h : s.Ready) {c : AbortCause} (hraised : c.raisedBy s.cfg s.current) :
    (s.abort c).Inv :=
  h.inv_stopped nofun fun cause info hrun => by
    obtain ⟨rfl, rfl⟩ := RunState.aborted.inj hrun
    exact ⟨rfl, BitVec.sub_add_cancel s.pc 1, hraised⟩

theorem State.Ready.link {s : State} (h : s.Ready) : s.link.Ready :=
  ⟨h.addresses, h.memory, h.running, h.idle, h.flushed⟩

/-- Output that is flushed at once leaves nothing owed. -/
theorem State.Ready.flushedWrite {s : State} (h : s.Ready) (bs : List Byte) : (s.ttyWrite bs).ttyFlush.Ready :=
  ⟨h.addresses, h.memory, h.running, h.idle, rfl⟩

theorem Routine.inv {i : Instr} {s t : State} (h : Routine i s t) (hs : State.Serving i s) (hr : s.Ready) :
    t.Inv := by
  cases h with
  | key h => exact h.inv hs hr.flushed
  | scan h => exact h.inv hs hr.flushed.le
  | out => exact (hr.flushedWrite _).inv
  | halt => exact (hr.flushedWrite _).inv_stopped (fun _ => ⟨hs.current, hs.link⟩) nofun
  | @undef v _ hv =>
    rcases s.undefRoutine_cases with ⟨hpolicy, h⟩ | ⟨-, h⟩ <;> rw [h]
    · exact hr.inv_abort ⟨⟨v, hs.current, hv⟩, hpolicy⟩
    · exact hr.inv

/-- Executing the instruction in IR leads from a ready engine to one with the invariant. -/
theorem Effect.inv {s t : State} (h : Effect s.current s t) (hs : s.Ready) : t.Inv := by
  cases h with
  | result _ hpolled =>
    have hu := hpolled.ready hs
    exact State.Ready.inv ⟨hu.addresses, hu.memory, hu.running, hu.idle, hu.flushed⟩
  | store _ _ hpolled =>
    have hu := hpolled.ready hs
    exact State.Ready.inv ⟨hu.addresses, Memory.wf_write hu.memory _ _, hu.running, hu.idle, hu.flushed⟩
  | jump => exact State.Ready.inv ⟨hs.addresses, hs.memory, hs.running, hs.idle, hs.flushed⟩
  | linkedJump => exact State.Ready.inv ⟨hs.addresses, hs.memory, hs.running, hs.idle, hs.flushed⟩
  | abort _ hraised => exact hs.inv_abort hraised
  | routine h => exact h.inv hs.serving_link hs.link

theorem State.Ready.fetch {s : State} (h : s.Ready) : s.fetch.Ready := by
  have hr := (s.polled_memRead s.pc).ready h
  exact ⟨hr.addresses, hr.memory, hr.running, hr.idle, hr.flushed⟩

/-- A routine that goes on keeps the invariant. -/
theorem State.Inv.resume {s : State} (h : s.Inv) (running : s.run = .running) : s.resume.Inv := by
  rcases s.resume_cases with ⟨-, hresume⟩ | ⟨k, a, ha, hresume⟩ | ⟨ha, hresume⟩ | ⟨ha, hresume⟩ <;>
    rw [hresume]
  · exact h
  · exact (State.scanned_scanFrom ..).inv (h.serving running (congrArg Activity.instr ha)) h.flushedLe
  · exact s.keyRead_getcRead.inv (h.serving running (congrArg Activity.instr ha)) (h.flushedAll (by rw [ha]; rfl))
  · exact s.keyRead_inRead.inv (h.serving running (congrArg Activity.instr ha)) (h.flushedAll (by rw [ha]; rfl))

/-- Settles O12: a stopped engine stays, a routine goes on in its TRAP, and an instruction starts from an
engine with everything flushed. -/
theorem stepKeepsTheInvariant : Obligations.StepKeepsTheInvariant := by
  intro s t hs h
  rcases step_cases h with ⟨-, rfl⟩ | ⟨hr, -, rfl⟩ | ⟨hr, ha, h⟩
  · exact hs
  · exact hs.resume hr
  · exact (effect_of_exec (decode_wf _) h).inv (hs.ready hr ha).fetch

/-! ### The machine as it is created (R29, R115) -/

/-- A machine as it is created is ready, whatever its parameters and its terminal's input. -/
theorem ready_resetWith {cfg : Config} (h : cfg.wf) (input : List Byte) (e : InputEnd) (polls : List Bool) :
    (State.resetWith cfg (Terminal.ofInput input e polls)).Ready :=
  ⟨h, Memory.wf_nil, rfl, rfl, rfl⟩

/-- Settles O11: a created machine is between two instructions, with nothing written. -/
theorem createdMachineHasTheInvariant : Obligations.CreatedMachineHasTheInvariant :=
  ⟨(ready_resetWith (by decide) [] .eof []).inv,
    fun _ input e polls h => (ready_resetWith h input e polls).inv⟩

/-- Settles O9: each field of a created machine is its row of R29's table. -/
theorem createdMachineHoldsTheResetValues : Obligations.CreatedMachineHoldsTheResetValues :=
  fun _ _ _ _ => ⟨Memory.read_nil, rfl, rfl, fun hdefault => congrArg Config.pcStart hdefault,
    fun _ => rfl, rfl, rfl, rfl, rfl, rfl, rfl⟩

/-- Settles O10: each decided default is the field of the default record. -/
theorem resetUsesTheDefaultParameters : Obligations.ResetUsesTheDefaultParameters :=
  ⟨rfl, rfl, rfl, rfl, rfl, rfl, rfl, rfl, rfl, rfl, rfl, Memory.read_nil⟩

end Sys2Proof.Machine
end

section
/-! COND is read by BR only (spec/10_state.md R22): started with another COND, every other instruction takes
the same way, read by read and write by write. -/

namespace Sys2Proof.Machine

/-- The same state with another COND. -/
def State.withCond (s : State) (c : Cond) : State := { s with cond := c }

/-! ### Operations that do not look at COND -/

section WithCond
variable (s : State) (c : Cond)

theorem State.poll_withCond : (s.withCond c).poll = s.poll.withCond c := by
  rcases h : s.term.kbdPoll with ⟨_ | b, t⟩
  · rw [State.poll_none h, State.poll_none (s := s.withCond c) h]; rfl
  · rw [State.poll_some h, State.poll_some (s := s.withCond c) h]; rfl

theorem State.memRead_withCond (a : Word) :
    (s.withCond c).memRead a = ((s.memRead a).1, (s.memRead a).2.withCond c) := by
  by_cases h : a = s.cfg.kbsrAddr
  · subst h
    refine (s.withCond c).memRead_kbsr.trans ?_
    rw [State.memRead_kbsr, State.poll_withCond]
    rfl
  · rw [State.memRead_plain h, State.memRead_plain (s := s.withCond c) h]
    rfl

theorem State.stringRead_withCond (a : Word) :
    (s.withCond c).stringRead a = ((s.stringRead a).1, (s.stringRead a).2.withCond c) := by
  rcases hp : s.cfg.stringReadPolls
  · rw [State.stringRead_plain hp, State.stringRead_plain (s := s.withCond c) hp]
    rfl
  · have hread : ∀ u : State, u.cfg = s.cfg → u.stringRead a = u.memRead a := fun u hu => by
      rw [State.stringRead, hu, hp, if_pos rfl]
    rw [hread s rfl, hread (s.withCond c) rfl, State.memRead_withCond]

theorem State.scanFrom_withCond (k : StringKind) (n : Nat) (a : Word) :
    (s.withCond c).scanFrom k n a = (s.scanFrom k n a).withCond c := by
  induction n generalizing a s with
  | zero => rfl
  | succ n ih =>
    have hread := s.stringRead_withCond c a
    by_cases h : (s.stringRead a).1 = 0
    · rw [State.scanFrom_stop h, State.scanFrom_stop (by rw [hread]; exact h), hread]
      rfl
    · rw [State.scanFrom_more h, State.scanFrom_more (by rw [hread]; exact h), hread]
      exact ih ((s.stringRead a).2.ttyWrite _) (a + 1)

/-- A key read that completes writes COND itself; one that waits keeps it. -/
theorem State.getcRead_withCond : ∃ c', (s.withCond c).getcRead = s.getcRead.withCond c' := by
  rcases s.term.input_cases with ⟨b, h⟩ | ⟨h, he⟩ | ⟨h, he⟩
  · rw [State.getcRead_byte h, State.getcRead_byte (s := s.withCond c) h]; exact ⟨_, rfl⟩
  · rw [State.getcRead_eof h he, State.getcRead_eof (s := s.withCond c) h he]; exact ⟨_, rfl⟩
  · rw [State.getcRead_stall h he, State.getcRead_stall (s := s.withCond c) h he]; exact ⟨c, rfl⟩

theorem State.inRead_withCond : ∃ c', (s.withCond c).inRead = s.inRead.withCond c' := by
  rcases s.term.input_cases with ⟨b, h⟩ | ⟨h, he⟩ | ⟨h, he⟩
  · rw [State.inRead_byte h, State.inRead_byte (s := s.withCond c) h]; exact ⟨_, rfl⟩
  · rw [State.inRead_eof h he, State.inRead_eof (s := s.withCond c) h he]; exact ⟨_, rfl⟩
  · rw [State.inRead_stall h he, State.inRead_stall (s := s.withCond c) h he]; exact ⟨c, rfl⟩

theorem State.undefRoutine_withCond : (s.withCond c).undefRoutine = s.undefRoutine.withCond c := by
  rcases s.undefRoutine_cases with ⟨hp, h⟩ | ⟨hp, h⟩ <;>
    rcases (s.withCond c).undefRoutine_cases with ⟨hp', h'⟩ | ⟨hp', h'⟩
  · rw [h, h']; rfl
  · exact nomatch hp.symm.trans hp'
  · exact nomatch hp.symm.trans hp'
  · rw [h, h']

end WithCond

/-! ### The instructions -/

/-- Two outcomes that are the same next state but for COND. -/
def NextAlike (x y : Host.Outcome State Fault Refusal) : Prop :=
  ∃ (t : State) (c : Cond), x = .next t ∧ y = .next (t.withCond c)

theorem NextAlike.of_eq {t t' : State} {c : Cond} (h : t' = t.withCond c) : NextAlike (.next t) (.next t') :=
  ⟨t, c, rfl, h ▸ rfl⟩

/-- A load whose reads are those of the same state with another COND writes the same result. -/
theorem nextAlike_load {r r' : Word × State} {c : Cond} (hr : r' = (r.1, r.2.withCond c)) (dr : RegIdx) :
    NextAlike (.next (r.2.writeResult dr r.1)) (.next (r'.2.writeResult dr r'.1)) := by
  subst hr
  exact ⟨_, _, rfl, rfl⟩

theorem exec_withCond {i : Instr} (hwf : i.wf = true) (hbr : ∀ nzp off9, i ≠ .br nzp off9) (s : State)
    (c : Cond) : NextAlike (exec i s) (exec i (s.withCond c)) :=
  match i with
  | .br nzp off9 => absurd rfl (hbr nzp off9)
  | .addReg _ _ _ | .addImm _ _ _ | .andReg _ _ _ | .andImm _ _ _ | .not _ _ | .lea _ _ => ⟨_, _, rfl, rfl⟩
  | .jmp _ | .jsr _ | .jsrr _ => ⟨_, _, rfl, rfl⟩
  | .ld dr off9 => nextAlike_load (s.memRead_withCond c (s.eaPcRel off9)) dr
  | .ldr dr baseR off6 => nextAlike_load (s.memRead_withCond c (s.eaBase baseR off6)) dr
  | .ldi dr off9 =>
    have hread : ((s.withCond c).memRead (s.eaPcRel off9)).2.memRead ((s.withCond c).memRead (s.eaPcRel off9)).1 =
        (((s.memRead (s.eaPcRel off9)).2.memRead (s.memRead (s.eaPcRel off9)).1).1,
          ((s.memRead (s.eaPcRel off9)).2.memRead (s.memRead (s.eaPcRel off9)).1).2.withCond c) := by
      simp only [State.memRead_withCond]
    nextAlike_load hread dr
  | .st _ _ | .str _ _ _ => ⟨_, _, rfl, rfl⟩
  | .sti sr off9 => by
    have hread : (s.withCond c).eaIndirect off9 = ((s.eaIndirect off9).1, (s.eaIndirect off9).2.withCond c) :=
      s.memRead_withCond c (s.eaPcRel off9)
    rw [exec_sti, exec_sti, hread]
    exact ⟨_, _, rfl, rfl⟩
  | .trap v => by
    have hv : definedVector v = false := by simpa [Instr.wf] using hwf
    rw [exec_trap_undefined _ hv, exec_trap_undefined _ hv]
    exact .of_eq (s.link.undefRoutine_withCond c)
  | .trapGetc => (s.link.getcRead_withCond c).elim fun _ => .of_eq
  | .trapIn => ((s.link.ttyWrite s.cfg.inPrompt).ttyFlush.inRead_withCond c).elim fun _ => .of_eq
  | .trapPuts => .of_eq (s.link.scanFrom_withCond c .puts scanReads (s.link.reg 0))
  | .trapPutsp => .of_eq (s.link.scanFrom_withCond c .putsp scanReads (s.link.reg 0))
  | .trapOut | .trapHalt | .rti | .res => ⟨_, _, rfl, rfl⟩

/-- Settles O20: every instruction but BR goes the same way whatever COND is. -/
theorem condIsReadByBrOnly : Obligations.CondIsReadByBrOnly := by
  intro i s t c hbr h
  obtain ⟨j, hwf, hj, -, hexec⟩ := exists_wf_exec_eq i
  have hbr' : ∀ nzp off9, j ≠ .br nzp off9 := by
    rintro nzp off9 rfl
    rcases hj with rfl | hj
    · exact hbr nzp off9 rfl
    · exact nomatch hj
  obtain ⟨u, c', hu, hu'⟩ := exec_withCond hwf hbr' s c
  rw [hexec] at hu hu'
  obtain rfl := Host.Outcome.next.inj (hu.symm.trans h)
  exact ⟨c', hu'⟩

end Sys2Proof.Machine
end

section
/-! PUTS and PUTSP (spec/43_trap.md R91, R93, R96): the scan is the loop of the spec where that loop ends
within one step's reads, and never ends in a memory without a zero word. -/

namespace Sys2Proof

theorem decode_trapPuts_of_row {w : Word} (h : w &&& 0xF0FF = 0xF022) : decode w = .trapPuts :=
  decode_trap_of_row h (by decide)

theorem decode_trapPutsp_of_row {w : Word} (h : w &&& 0xF0FF = 0xF024) : decode w = .trapPutsp :=
  decode_trap_of_row h (by decide)

end Sys2Proof

namespace Sys2Proof.Machine

/-! ### Scans that end -/

/-- `t` is what a scan from `s` leaves when its loop ends in `u`: the loop's memory and terminal, all of it
flushed, the routine complete, no register and no flag written. -/
def ScanCompletes (s u t : State) : Prop :=
  t.term = { u.term with flushed := u.term.output.length } ∧ KeepsMemory u t ∧
    t.regs = s.regs ∧ t.pc = s.pc ∧ t.cond = s.cond ∧ CompletesRoutine s t

theorem State.scanCompletes_scanFrom {k : StringKind} {n : Nat} {a : Word} {s u : State} (h : StringLoop k n a s u)
    (hn : n ≤ scanReads) : ScanCompletes s u (s.scanFrom k scanReads a) := by
  have hscanned := State.scanned_scanFrom k scanReads a s
  rw [State.scanFrom_of_loop h hn] at hscanned ⊢
  exact ⟨rfl, fun _ => rfl, hscanned.regs, hscanned.served.pc, hscanned.cond, hscanned.served.cfg, hscanned.served.ir,
    hscanned.run, rfl⟩

theorem State.reg_zero_link (s : State) : s.link.reg 0 = s.reg 0 := s.keepsRegs_link 0 (by decide)

/-- A string TRAP whose loop ends within one step's reads completes as the loop does, the link written. -/
theorem exec_stringTrap_completes {k : StringKind} {n : Nat} {s u : State} (h : StringLoop k n (s.reg 0) s.link u)
    (hn : n ≤ scanReads) : ∃ t, exec k.trap s = .next t ∧
      t.term = { u.term with flushed := u.term.output.length } ∧ KeepsMemory u t ∧
      t.reg 7 = s.pc ∧ KeepsRegs [7] s t ∧ t.pc = s.pc ∧ t.cond = s.cond ∧ CompletesRoutine s t := by
  rw [← s.reg_zero_link] at h
  obtain ⟨hterm, hmem, hregs, hpc, hcond, hcomplete⟩ := State.scanCompletes_scanFrom h hn
  exact ⟨_, exec_stringTrap s k, hterm, hmem, (State.reg_congr hregs 7).trans s.reg_link_same,
    s.keepsRegs_link.trans (.of_regs_eq hregs []), hpc, hcond, hcomplete⟩

/-- Settles O46: the scan is the loop of R91 and R93. -/
theorem stringRoutinesRunTheirLoop : Obligations.StringRoutinesRunTheirLoop :=
  ⟨fun _ => decode_trapPuts_of_row, fun _ => decode_trapPutsp_of_row,
    fun _ _ _ _ hn h => exec_stringTrap_completes h hn⟩

/-- Settles O49: a scan that goes on is the loop from the address it holds. -/
theorem unfinishedScanGoesOn : Obligations.UnfinishedScanGoesOn := by
  intro s u k a n hr ha hn h
  obtain ⟨hterm, hmem, hregs, hrest⟩ := State.scanCompletes_scanFrom h hn
  refine ⟨s.scanFrom k scanReads a, ?_, hterm, hmem, .of_regs_eq hregs [], hrest⟩
  rw [step_resume hr (by simp [ha]), State.resume, ha]

/-- With plain reads, the string at R0 is a run of the loop that writes its bytes and nothing else. -/
theorem exec_stringTrap_writes {s : State} {n : Nat} (k : StringKind) (hp : s.cfg.stringReadPolls = false)
    (hn : n < 65536) (hw : ∀ w ∈ s.mem.words n (s.reg 0), w ≠ 0)
    (h0 : s.mem.read (s.reg 0 + BitVec.ofNat 16 n) = 0) :
    ∃ t, exec k.trap s = .next t ∧
      t.term.output = s.term.output ++ (s.mem.words n (s.reg 0)).flatMap (stringBytes k) ∧
      t.term = { s.term with output := t.term.output, flushed := t.term.output.length } ∧
      t.reg 7 = s.pc ∧ KeepsRegs [7] s t ∧ t.pc = s.pc ∧ t.cond = s.cond ∧ KeepsMemory s t ∧
      CompletesRoutine s t := by
  have hloop := StringLoop.of_words (k := k) (s := s.link) hp hw h0
  obtain ⟨t, ht, hterm, hmem, hlink, hregs, hpc, hcond, hcomplete⟩ := exec_stringTrap_completes hloop hn
  exact ⟨t, ht, by rw [hterm]; rfl, by rw [hterm]; rfl, hlink, hregs, hpc, hcond, hmem, hcomplete⟩

theorem flatMap_stringBytes_puts (l : List Word) : l.flatMap (stringBytes .puts) = l.map lowByte :=
  List.flatMap_pure_eq_map lowByte l

/-- Settles O47: the loop over a zero-terminated string, for each routine's bytes of a word. -/
theorem zeroTerminatedStringIsWritten : Obligations.ZeroTerminatedStringIsWritten := by
  intro s n hp hn hw h0 low high
  have hputs := exec_stringTrap_writes .puts hp hn hw h0
  rw [flatMap_stringBytes_puts] at hputs
  exact ⟨hputs, exec_stringTrap_writes .putsp hp hn hw h0⟩

/-! ### Scans that do not end (D24) -/

/-- RUNNING inside a string routine, with plain reads, in a memory without a zero word. -/
def State.InEndlessScan (k : StringKind) (s : State) : Prop :=
  s.run = .running ∧ (∃ a, s.activity = .scan k a) ∧ s.cfg.stringReadPolls = false ∧ ∀ a, s.mem.read a ≠ 0

/-- One step's reads over words that are not zero write a byte or more for each and leave the scan open. -/
theorem State.inEndlessScan_scanFrom {s : State} (k : StringKind) (a : Word) (hr : s.run = .running)
    (hp : s.cfg.stringReadPolls = false) (hmem : ∀ a, s.mem.read a ≠ 0) :
    State.InEndlessScan k (s.scanFrom k scanReads a) ∧
      s.term.output.length + scanReads ≤ (s.scanFrom k scanReads a).term.output.length := by
  rw [State.scanFrom_nonzero hp (Memory.words_ne_zero hmem scanReads a)]
  refine ⟨⟨hr, ⟨_, rfl⟩, hp, hmem⟩, ?_⟩
  have hbytes := length_le_flatMap_stringBytes k (s.mem.words scanReads a)
  rw [Memory.words_length] at hbytes
  simpa using hbytes

theorem State.InEndlessScan.step {k : StringKind} {s : State} (h : State.InEndlessScan k s) :
    ∃ t, step s = .next t ∧ State.InEndlessScan k t ∧ s.term.output.length + scanReads ≤ t.term.output.length := by
  obtain ⟨hr, ⟨a, ha⟩, hp, hmem⟩ := h
  refine ⟨s.scanFrom k scanReads a, ?_, State.inEndlessScan_scanFrom k a hr hp hmem⟩
  rw [step_resume hr (by simp [ha]), State.resume, ha]

/-- Settles O59: one step's reads find no zero word. -/
theorem stepInsideAnEndlessScanStaysInside : Obligations.StepInsideAnEndlessScanStaysInside := by
  intro s t k hr ha hp hmem h
  obtain ⟨u, hu, ⟨hr', ha', hp', hmem'⟩, hlength⟩ := State.InEndlessScan.step ⟨hr, ha, hp, hmem⟩
  obtain rfl := Host.Outcome.next.inj (hu.symm.trans h)
  exact ⟨hr', ha', hp', hmem', hlength⟩

/-- Any number of steps inside an endless scan. -/
theorem State.InEndlessScan.steps {k : StringKind} {s : State} (h : State.InEndlessScan k s) (n : Nat) :
    ∃ u, Steps n s u ∧ State.InEndlessScan k u ∧ s.term.output.length + scanReads * n ≤ u.term.output.length := by
  induction n generalizing s with
  | zero => exact ⟨s, .zero s, h, le_rfl⟩
  | succ n ih =>
    obtain ⟨t, hstep, ht, hlength⟩ := h.step
    obtain ⟨u, hsteps, hu, hlength'⟩ := ih ht
    exact ⟨u, .succ hstep hsteps, hu, by rw [Nat.mul_succ]; omega⟩

/-- Settles O48: the TRAP's own step enters the endless scan, and every further step stays in it. -/
theorem scanWithoutAZeroWordNeverEnds : Obligations.ScanWithoutAZeroWordNeverEnds := by
  intro s t k hp hmem hr h n
  obtain rfl := Host.Outcome.next.inj ((exec_stringTrap s k).symm.trans h)
  obtain ⟨hscan, hlength⟩ := State.inEndlessScan_scanFrom (s := s.link) k (s.link.reg 0) hr hp hmem
  obtain ⟨u, hsteps, ⟨hru, hau, -, -⟩, hlength'⟩ := hscan.steps n
  refine ⟨u, hsteps, hru, hau, ?_⟩
  calc s.term.output.length + 65536 * (n + 1) = s.link.term.output.length + scanReads + scanReads * n := by
        rw [s.link_term, scanReads]; omega
    _ ≤ (s.link.stringRoutine k).term.output.length + scanReads * n := Nat.add_le_add_right hlength _
    _ ≤ u.term.output.length := hlength'

end Sys2Proof.Machine
end

section
/-! GETC, IN, HALT, the undefined vectors and the fatal opcodes (spec/43_trap.md R86 to R95,
spec/44_reserved.md R97, R98). -/

namespace Sys2Proof

/-! ### The words of each row -/

section Rows
variable {w : Word}

theorem decode_trapGetc_of_row (h : w &&& 0xF0FF = 0xF020) : decode w = .trapGetc :=
  decode_trap_of_row h (by decide)

theorem decode_trapIn_of_row (h : w &&& 0xF0FF = 0xF023) : decode w = .trapIn :=
  decode_trap_of_row h (by decide)

theorem decode_trapHalt_of_row (h : w &&& 0xF0FF = 0xF025) : decode w = .trapHalt :=
  decode_trap_of_row h (by decide)

/-- A word of TRAP's tag decodes by its vector; bits 11:8 are not looked at (R88). -/
theorem decode_trap_of_tag (h : w &&& 0xF000 = 0xF000) : decode w = trapOf (vect8Of w) :=
  decode_trap (ofTag_of_row h (by decide) (by decide))

theorem decode_rti_of_row (h : w &&& 0xF000 = 0x8000) : decode w = .rti :=
  decode_rti (ofTag_of_row h (by decide) (by decide))

theorem decode_res_of_row (h : w &&& 0xF000 = 0xD000) : decode w = .res :=
  decode_res (ofTag_of_row h (by decide) (by decide))

end Rows

theorem definedVector_eq_false {v : Byte} (h : v.toNat < 0x20 ∨ 0x25 < v.toNat) : definedVector v = false := by
  simp only [definedVector, Bool.and_eq_false_iff, decide_eq_false_iff_not]
  omega

/-- Every vector links and leaves PC (R88). -/
theorem links_trapOf (v : Byte) : (trapOf v).links = true ∧ (trapOf v).transfersControl = false := by
  unfold trapOf
  split_ifs <;> exact ⟨rfl, rfl⟩

theorem trapOf_keyRow {v : Byte} (h : v = 0x20 ∨ v = 0x23) : Machine.HasRow (trapOf v) [7, 0] true (some 0) := by
  rcases h with rfl | rfl <;> exact ⟨rfl, rfl, rfl⟩

theorem trapOf_linkRow {v : Byte} (h : v ≠ 0x20 ∧ v ≠ 0x23) : Machine.HasRow (trapOf v) [7] true none := by
  unfold trapOf
  rw [if_neg h.1, if_neg h.2]
  split_ifs <;> exact ⟨rfl, rfl, rfl⟩

end Sys2Proof

namespace Sys2Proof.Machine

/-! ### TRAP as a whole -/

/-- Settles O43: the vector picks the routine, whose row of R16's table and whose effect on PC are those of
every instruction. -/
theorem trapLinksAndDispatchesOnTheVector : Obligations.TrapLinksAndDispatchesOnTheVector := by
  intro w hw v
  have hd : decode w = trapOf v := decode_trap_of_tag hw
  refine ⟨fun h => ?_, fun h => ?_, fun h => ?_, fun h => ?_, fun h => ?_, fun h => ?_,
    fun h => hd.trans (trapOf_of_undefined (definedVector_eq_false h)), fun s => ?effect⟩
  case effect =>
    obtain ⟨t, ht, heffect⟩ := exec_effect (decode_wf w) s
    rw [hd] at heffect
    obtain ⟨hlinks, hjump⟩ := links_trapOf v
    obtain ⟨hregs, hlink, hcond, hreports⟩ := heffect.row
    refine ⟨t, ht, hlink hlinks, heffect.pc hjump, fun h => ?_, fun h => ?_⟩
    · obtain ⟨hwrites, -, hflagged⟩ := trapOf_keyRow h
      exact ⟨hwrites ▸ hregs, hreports 0 hflagged⟩
    · obtain ⟨hwrites, -, hflagged⟩ := trapOf_linkRow h
      exact ⟨hwrites ▸ hregs, hcond hflagged⟩
  all_goals rw [hd, h]; rfl

/-! ### Key reads that complete -/

/-- `t` is what a key read from `s` leaves when it completes with `v` in R0 and the terminal `term`. -/
def CompletesKeyRead (v : Word) (term : Terminal) (s t : State) : Prop :=
  t.reg 0 = v ∧ t.cond.Reports (t.reg 0) ∧ KeepsRegs [0] s t ∧ t.pc = s.pc ∧ KeepsMemory s t ∧
    t.term = term ∧ CompletesRoutine s t

theorem State.completesKeyRead_finishKey (s : State) (term : Terminal) (v : Word) :
    CompletesKeyRead v term s (State.finishKey { s with term := term } v) :=
  ⟨State.reg_writeResult_same _ 0 v, State.reports_finishKey _ v, State.keepsRegs_finishKey _ v, rfl, fun _ => rfl,
    rfl, rfl, rfl, rfl, rfl⟩

section Reads
variable {s : State}

theorem State.getcRead_completes_byte {b : Byte} (h : s.term.nextKey = some b) :
    CompletesKeyRead (zext16 b) s.term.dropKey s s.getcRead := by
  rw [State.getcRead_byte h]
  exact s.completesKeyRead_finishKey s.term.dropKey (zext16 b)

theorem State.getcRead_completes_eof (h : s.term.input = []) (he : s.term.inputEnd = .eof) :
    CompletesKeyRead s.cfg.eofSentinel s.term s s.getcRead := by
  rw [State.getcRead_eof h he]
  exact s.completesKeyRead_finishKey s.term s.cfg.eofSentinel

/-- IN echoes the byte and flushes it (R92). -/
theorem State.inRead_completes_byte {b : Byte} (h : s.term.nextKey = some b) :
    CompletesKeyRead (extendKey s.cfg.inExtend b)
      { s.term.dropKey with output := s.term.output ++ [b], flushed := s.term.output.length + 1 } s s.inRead := by
  have hecho : (State.ttyWrite { s with term := s.term.dropKey } [b]).ttyFlush =
      { s with term := { s.term.dropKey with output := s.term.output ++ [b]
                                             flushed := s.term.output.length + 1 } } := by
    simp [State.ttyWrite, State.ttyFlush]
  rw [State.inRead_byte h, hecho]
  exact s.completesKeyRead_finishKey _ (extendKey s.cfg.inExtend b)

/-- At end-of-input nothing is echoed (R92). -/
theorem State.inRead_completes_eof (h : s.term.input = []) (he : s.term.inputEnd = .eof) :
    CompletesKeyRead s.cfg.eofSentinel { s.term with flushed := s.term.output.length } s s.inRead := by
  rw [State.inRead_eof h he]
  exact s.completesKeyRead_finishKey { s.term with flushed := s.term.output.length } s.cfg.eofSentinel

end Reads

/-- IN's two widenings, as numbers (R92, D11). -/
theorem extendKey_zero_toNat (b : Byte) : (extendKey .zero b).toNat = b.toNat := zext16_byte_toNat b

theorem extendKey_sign_toInt (b : Byte) : (extendKey .sign b).toInt = b.toInt :=
  sext16_toInt (by decide) (by decide) b

/-- A key read of the TRAP's routine completes with the link written besides. -/
theorem CompletesKeyRead.link {v : Word} {term : Terminal} {s t : State} (h : CompletesKeyRead v term s.link t) :
    t.reg 0 = v ∧ t.cond.Reports (t.reg 0) ∧ t.reg 7 = s.pc ∧ KeepsRegs [7, 0] s t ∧ t.pc = s.pc ∧
      KeepsMemory s t ∧ t.term = term ∧ CompletesRoutine s t := by
  obtain ⟨hv, hreports, hregs, hpc, hmem, hterm, hcomplete⟩ := h
  exact ⟨hv, hreports, (hregs 7 (by decide)).trans s.reg_link_same, s.keepsRegs_link.trans hregs, hpc, hmem, hterm,
    hcomplete⟩

/-- Settles O44: the three things an input can be, from the state after the link. -/
theorem getcReadsOneKey : Obligations.GetcReadsOneKey := by
  refine ⟨fun _ => decode_trapGetc_of_row, fun s b h => ?byte, fun s h he => ?eof, fun s h he => ?stall⟩
  case byte =>
    obtain ⟨hv, hrest⟩ := (State.getcRead_completes_byte (s := s.link) h).link
    exact ⟨_, exec_trapGetc s, by rw [hv, zext16_byte_toNat], hrest⟩
  case eof =>
    exact ⟨_, exec_trapGetc s, (State.getcRead_completes_eof (s := s.link) h he).link⟩
  case stall =>
    refine ⟨_, exec_trapGetc s, ?_⟩
    rw [State.getcRead_stall (s := s.link) h he]
    exact ⟨rfl, s.reg_link_same, s.keepsRegs_link, rfl, rfl, fun _ => rfl, rfl, rfl, rfl, rfl⟩

/-- IN after its link and its prompt (R92). -/
def State.prompted (s : State) : State := (s.link.ttyWrite s.cfg.inPrompt).ttyFlush

theorem exec_trapIn_prompted (s : State) : exec .trapIn s = .next s.prompted.inRead := rfl

theorem CompletesKeyRead.prompted {v : Word} {term : Terminal} {s t : State}
    (h : CompletesKeyRead v term s.prompted t) : CompletesKeyRead v term s.link t := h

/-- Settles O50: the three things an input can be, from the state after the link and the prompt. -/
theorem inPromptsAndReadsOneKey : Obligations.InPromptsAndReadsOneKey := by
  refine ⟨fun _ => decode_trapIn_of_row, fun s b h => ?byte, fun s h he => ?eof, fun s h he => ?stall⟩
  case byte =>
    obtain ⟨hv, hreports, hlink, hregs, hpc, hmem, hterm, hcomplete⟩ :=
      (State.inRead_completes_byte (s := s.prompted) h).prompted.link
    refine ⟨_, exec_trapIn_prompted s, fun hzero => ?_, fun hsign => ?_, hreports, ?_, hlink, hregs, hpc, hmem,
      hcomplete⟩
    · rw [hv, show s.prompted.cfg.inExtend = .zero from hzero, extendKey_zero_toNat]
    · rw [hv, show s.prompted.cfg.inExtend = .sign from hsign, extendKey_sign_toInt]
    · simpa [State.prompted] using hterm
  case eof =>
    obtain ⟨hv, hreports, hlink, hregs, hpc, hmem, hterm, hcomplete⟩ :=
      (State.inRead_completes_eof (s := s.prompted) h he).prompted.link
    exact ⟨_, exec_trapIn_prompted s, hv, hreports, by simpa [State.prompted] using hterm, hlink, hregs, hpc, hmem,
      hcomplete⟩
  case stall =>
    refine ⟨_, exec_trapIn_prompted s, ?_⟩
    rw [State.inRead_stall (s := s.prompted) h he]
    exact ⟨rfl, by simp [State.prompted], s.reg_link_same, s.keepsRegs_link, rfl, rfl, fun _ => rfl, rfl, rfl, rfl⟩

/-! ### Key reads that wait (R86, R114) -/

theorem step_wait_getc {s : State} (hr : s.run = .running) (ha : s.activity = .wait .getc) :
    step s = .next s.getcRead := by
  rw [step_resume hr (by simp [ha]), State.resume, ha]

theorem step_wait_inKey {s : State} (hr : s.run = .running) (ha : s.activity = .wait .inKey) :
    step s = .next s.inRead := by
  rw [step_resume hr (by simp [ha]), State.resume, ha]

/-- Settles O52: the next step is the key read again, which now completes. -/
theorem waitingKeyReadResumes : Obligations.WaitingKeyReadResumes := by
  refine ⟨fun s b hr ha h => ?getc, fun s b hr ha h => ?inKey, fun s k hr ha h he => ?eof⟩
  case getc =>
    obtain ⟨hv, hrest⟩ := State.getcRead_completes_byte h
    exact ⟨_, step_wait_getc hr ha, by rw [hv, zext16_byte_toNat], hrest⟩
  case inKey =>
    obtain ⟨hv, hrest⟩ := State.inRead_completes_byte h
    exact ⟨_, step_wait_inKey hr ha, fun hzero => by rw [hv, hzero, extendKey_zero_toNat],
      fun hsign => by rw [hv, hsign, extendKey_sign_toInt], hrest⟩
  case eof =>
    cases k with
    | getc =>
      obtain ⟨hv, hreports, hregs, hpc, hmem, hterm, hcomplete⟩ := State.getcRead_completes_eof h he
      exact ⟨_, step_wait_getc hr ha, hv, hreports, hregs, hpc, hmem, by rw [hterm], by rw [hterm, h], hcomplete⟩
    | inKey =>
      obtain ⟨hv, hreports, hregs, hpc, hmem, hterm, hcomplete⟩ := State.inRead_completes_eof h he
      exact ⟨_, step_wait_inKey hr ha, hv, hreports, hregs, hpc, hmem, by rw [hterm], by rw [hterm]; exact h,
        hcomplete⟩

/-- RUNNING in a key read on stalled input. -/
def State.Stalled (k : KeyKind) (s : State) : Prop :=
  s.activity = .wait k ∧ s.run = .running ∧ s.term.input = [] ∧ s.term.inputEnd = .stall

/-- A step of a wait changes nothing (log 20). -/
theorem State.Stalled.step {k : KeyKind} {s : State} (h : s.Stalled k) : step s = .next s := by
  obtain ⟨ha, hr, hi, he⟩ := h
  cases k with
  | getc => rw [step_wait_getc hr ha, State.getcRead_stall hi he, ← ha]
  | inKey => rw [step_wait_inKey hr ha, State.inRead_stall hi he, ← ha]

/-- The TRAP of a key read on stalled input ends in the wait. -/
theorem stalled_of_exec {k : KeyKind} {s t : State} (hr : s.run = .running) (hi : s.term.input = [])
    (he : s.term.inputEnd = .stall) (h : exec k.trap s = .next t) : t.Stalled k := by
  cases k with
  | getc =>
    obtain rfl := Host.Outcome.next.inj ((exec_trapGetc s).symm.trans h)
    rw [State.getcRead_stall (s := s.link) hi he]
    exact ⟨rfl, hr, hi, he⟩
  | inKey =>
    obtain rfl := Host.Outcome.next.inj ((exec_trapIn_prompted s).symm.trans h)
    rw [State.inRead_stall (s := s.prompted) hi he]
    exact ⟨rfl, hr, hi, he⟩

/-- Settles O51: the wait is entered by the TRAP's own step and is a step to itself. -/
theorem stalledKeyReadNeverReturns : Obligations.StalledKeyReadNeverReturns := by
  intro s t k hr hi he h
  have hstalled := stalled_of_exec hr hi he h
  have ⟨ha, hrun, _, _⟩ := hstalled
  refine ⟨ha, hrun, fun n => ?_⟩
  induction n with
  | zero => exact .zero t
  | succ n ih => exact .succ hstalled.step ih

/-! ### HALT, the undefined vectors and the fatal opcodes -/

/-- Settles O53: the notice and its flush, then RUN, from the state after the link. -/
theorem haltWritesTheNoticeAndHalts : Obligations.HaltWritesTheNoticeAndHalts :=
  ⟨fun _ => decode_trapHalt_of_row, fun s => ⟨_, exec_trapHalt s, rfl, by simp [State.haltRoutine],
    s.reg_link_same, s.keepsRegs_link, rfl, rfl, fun _ => rfl, rfl, rfl, rfl⟩⟩

/-- Settles O54: the link, then the policy's case. -/
theorem undefinedVectorFollowsThePolicy : Obligations.UndefinedVectorFollowsThePolicy := by
  intro s v hv
  refine ⟨_, exec_trap_undefined s (definedVector_eq_false hv), ?_⟩
  rcases s.link.undefRoutine_cases with ⟨hp, h⟩ | ⟨hp, h⟩ <;> rw [h] <;>
    refine ⟨s.reg_link_same, s.keepsRegs_link, rfl, rfl, fun _ => rfl, rfl, rfl, rfl, rfl, fun hpolicy => ?_,
      fun hpolicy => ?_⟩
  · exact nomatch hp.symm.trans hpolicy
  · rfl
  · rfl
  · exact nomatch hp.symm.trans hpolicy

/-- Settles O55: both rows' words, then the abort's own fields. -/
theorem rtiAndResAbort : Obligations.RtiAndResAbort := by
  refine ⟨fun _ => decode_rti_of_row, fun _ => decode_res_of_row, fun s i cause h => ?_⟩
  have hexec : exec i s = .next (s.abort cause) := by
    rcases h with ⟨rfl, rfl⟩ | ⟨rfl, rfl⟩
    · exact exec_rti s
    · exact exec_res s
  exact ⟨_, hexec, rfl, fun _ _ => rfl, rfl, rfl, fun _ => rfl, rfl, rfl, rfl, rfl⟩

end Sys2Proof.Machine
end

section
/-! BR and JSRR (spec/41_control.md R74, R77), and a stored word as the next fetch reads it
(spec/20_memory.md R48). -/

namespace Sys2Proof

theorem decode_br_of_row {w : Word} (h : w &&& 0xF000 = 0x0000) : decode w = .br (drOf w) (off9Of w) :=
  decode_br (ofTag_of_row h (by decide) (by decide))

theorem decode_jsrr_of_row {w : Word} (h : w &&& 0xF800 = 0x4000) : decode w = .jsrr (sr1Of w) :=
  decode_jsrr (ofTag_of_row h (by decide) (by decide)) (getLsbD_of_row h (by decide))

end Sys2Proof

namespace Sys2Proof.Machine

/-! ### BR -/

/-- The mask bit of the current flag is set (R74; n, z, p are bits 2, 1, 0: D2). -/
def BranchTaken (c : Cond) (nzp : BitVec 3) : Prop :=
  (c = .n ∧ nzp.getLsbD 2 = true) ∨ (c = .z ∧ nzp.getLsbD 1 = true) ∨ (c = .p ∧ nzp.getLsbD 0 = true)

theorem matches_iff_branchTaken (c : Cond) (nzp : BitVec 3) : c.matches nzp = true ↔ BranchTaken c nzp := by
  rw [Cond.matches_eq]
  cases c <;> simp [BranchTaken]

theorem not_branchTaken_zero (c : Cond) : ¬ BranchTaken c 0 := by
  simp [BranchTaken]

theorem branchTaken_seven (c : Cond) : BranchTaken c 7 := by
  rw [← matches_iff_branchTaken]
  cases c <;> rfl

/-- Settles O32: BR's test is that of the mask bit, and BR is a jump to where the test decides. -/
theorem brBranchesOnTheCurrentFlag : Obligations.BrBranchesOnTheCurrentFlag := by
  refine ⟨fun _ => decode_br_of_row, fun s nzp off9 => ⟨_, exec_br s nzp off9, ⟨fun htaken => ?taken,
    fun hnot => ?notTaken, ?never, ?always⟩, s.keepsAllButPc_jump _⟩⟩
  case taken =>
    rw [if_pos ((matches_iff_branchTaken s.cond nzp).2 htaken)]
    exact isSum_add_sext16 (by decide) (by decide) s.pc off9
  case notTaken => exact if_neg fun h => hnot ((matches_iff_branchTaken s.cond nzp).1 h)
  case never =>
    rintro rfl
    exact not_branchTaken_zero s.cond
  case always =>
    rintro rfl
    exact branchTaken_seven s.cond

/-! ### JSRR -/

/-- Settles O35: the base is read after the link, so R7 as base is the link itself (D16). -/
theorem jsrrLinksThenReadsTheBase : Obligations.JsrrLinksThenReadsTheBase := by
  refine ⟨fun _ => decode_jsrr_of_row, fun s baseR => ⟨_, exec_jsrr s baseR, s.reg_link_same, fun hne => ?other,
    fun heq => ?link, s.keepsAllButPc_linkedJump _⟩⟩
  case other => exact (s.reg_link baseR).trans (if_neg hne)
  case link => exact (s.reg_link baseR).trans (if_pos heq)

/-! ### Store, then fetch -/

/-- A fetch at the address just written, away from KBSR_ADDR, reads the word written. -/
theorem State.fetch_ir_memWrite (s : State) {a : Word} (v : Word) (ha : a ≠ s.cfg.kbsrAddr) :
    (State.fetch { s.memWrite a v with pc := a }).ir = v := by
  have hread : State.memRead { s.memWrite a v with pc := a } a =
      ((s.mem.write a v).read a, { s.memWrite a v with pc := a }) := State.memRead_plain ha
  rw [State.fetch_ir, hread]
  exact Memory.read_write_same ..

/-- Settles O28: each store is a plain write, for STI after the pointer's read, which keeps the parameters and
IR. -/
theorem storedWordIsFetched : Obligations.StoredWordIsFetched := by
  refine fun s t => ⟨fun sr off9 h hne => ?st, fun sr off9 h hne => ?sti, fun sr baseR off6 h hne => ?str⟩
  case st =>
    obtain rfl := Host.Outcome.next.inj ((exec_st s sr off9).symm.trans h)
    exact ⟨rfl, s.fetch_ir_memWrite _ hne⟩
  case sti =>
    have hpolled := s.polled_memRead (s.eaPcRel off9)
    obtain rfl := Host.Outcome.next.inj ((exec_sti s sr off9).symm.trans h)
    exact ⟨hpolled.ir, State.fetch_ir_memWrite _ _ (hpolled.cfg ▸ hne)⟩
  case str =>
    obtain rfl := Host.Outcome.next.inj ((exec_str s sr baseR off6).symm.trans h)
    exact ⟨rfl, s.fetch_ir_memWrite _ hne⟩

end Sys2Proof.Machine
end

section
/-! Images in memory (spec/20_memory.md R50 to R52) and the run over zeroed memory
(spec/70_reset_and_hazards.md R117). -/

namespace Sys2Proof.Machine

/-! ### Where the words of an image stand -/

/-- The word at place `j` of a stream, if the address space reaches so far. -/
theorem Memory.read_place_of_eq_add (bs : List Byte) (o : Nat) (m : Memory) {a : Word} {j : Nat}
    (ha : a.toNat = o + j) (hj : j < bs.length / 2) :
    (Memory.place bs o m).read a = wordOfBytes (bs.getD (2 * j) 0) (bs.getD (2 * j + 1) 0) := by
  induction bs, o, m using Memory.place.induct generalizing j with
  | case1 hi lo rest o m ho ih =>
    rw [Memory.place, if_pos ho]
    cases j with
    | zero =>
      have hao : a = BitVec.ofNat 16 o := BitVec.eq_of_toNat_eq (by rw [BitVec.toNat_ofNat]; omega)
      rw [Memory.read_place_of_lt _ _ _ (by omega), hao]
      exact Memory.read_write_same ..
    | succ j =>
      rw [List.length_cons, List.length_cons] at hj
      exact ih (by omega) (by omega)
  | case2 hi lo rest o m ho => omega
  | case3 bs o m hb =>
    match bs, hb with
    | [], _ => exact absurd hj (by simp)
    | [_], _ => exact absurd hj (by simp)
    | hi :: lo :: rest, hb => exact absurd rfl (hb hi lo rest)

/-- An address past the words of a stream keeps its word. -/
theorem Memory.read_place_of_ge (bs : List Byte) (o : Nat) (m : Memory) {a : Word}
    (h : o + bs.length / 2 ≤ a.toNat) : (Memory.place bs o m).read a = m.read a := by
  induction bs, o, m using Memory.place.induct with
  | case1 hi lo rest o m ho ih =>
    rw [List.length_cons, List.length_cons] at h
    rw [Memory.place, if_pos ho, ih (by omega), Memory.read_write_ne]
    rintro rfl
    rw [BitVec.toNat_ofNat, Nat.mod_eq_of_lt ho] at h
    omega
  | case2 hi lo rest o m ho => rw [Memory.place, if_neg ho]
  | case3 bs o m hb => rw [Memory.place]; exact hb

/-! ### Load -/

theorem State.load_success (s : State) (hi lo : Byte) (rest : List Byte) :
    s.load (some (hi :: lo :: rest)) =
      (.success, { s with mem := s.mem.place rest (256 * hi.toNat + lo.toNat) }) := by
  rw [← wordOfBytes_toNat]
  rfl

theorem State.load_failure (s : State) {stream : Option (List Byte)}
    (h : ∀ bytes, stream = some bytes → bytes.length < 2) : s.load stream = (.failure, s) :=
  match stream, h with
  | none, _ => rfl
  | some [], _ => rfl
  | some [_], _ => rfl
  | some (hi :: lo :: rest), h => absurd (h (hi :: lo :: rest) rfl) (by simp)

/-- Settles O56: the words of the stream by their places, the rest of memory on either side of them. -/
theorem loadPlacesTheImageWords : Obligations.LoadPlacesTheImageWords := by
  refine ⟨fun s hi lo rest => ?_, fun s _ h => s.load_failure h⟩
  rw [s.load_success hi lo rest]
  refine ⟨rfl, fun a horigin hplace => ?placed, fun a h => ?untouched, fun _ _ => rfl, rfl, rfl, rfl, rfl, rfl, rfl,
    rfl⟩
  case placed =>
    have ha := Memory.read_place_of_eq_add rest _ s.mem (Nat.add_sub_of_le horigin).symm hplace
    rw [ha, wordOfBytes_toNat]
  case untouched =>
    rcases Nat.lt_or_ge a.toNat (256 * hi.toNat + lo.toNat) with hlt | hge
    · exact Memory.read_place_of_lt rest _ s.mem hlt
    · exact Memory.read_place_of_ge rest _ s.mem (by omega)

/-- The invariant speaks of memory only in that it is canonical. -/
theorem State.Inv.withMem {s : State} (h : s.Inv) {m : Memory} (hm : m.wf) : State.Inv { s with mem := m } :=
  ⟨h.addresses, hm, h.stoppedIdle, h.flushedLe, h.flushedAll, h.inTrap, h.halted, h.aborted⟩

theorem State.Inv.load {s : State} (h : s.Inv) (stream : Option (List Byte)) : (s.load stream).2.Inv :=
  match stream with
  | some (hi :: lo :: rest) => h.withMem (Memory.wf_place rest (wordOfBytes hi lo).toNat s.mem h.memory)
  | none | some [] | some [_] => h

/-- Settles O57, load by load. -/
theorem loadingKeepsTheInvariant : Obligations.LoadingKeepsTheInvariant := by
  intro s streams h
  induction streams generalizing s with
  | nil => exact h
  | cons stream streams ih => exact ih (s.load stream).2 (h.load stream)

/-! ### The slide over zeroed memory -/

/-- RUNNING between two instructions in zeroed memory, with no key to be polled. -/
structure State.OnZeroSlide (s : State) : Prop where
  running : s.run = .running
  idle : s.activity = .idle
  zero : ∀ a, s.mem.read a = 0
  noKey : s.term.nextKey = none

theorem Terminal.nextKey_dropDraw (t : Terminal) : t.dropDraw.nextKey = t.nextKey := by
  simp [Terminal.nextKey]

/-- A poll with no key to find leaves the slide as it was. -/
theorem State.OnZeroSlide.poll {s : State} (h : s.OnZeroSlide) : s.poll.OnZeroSlide := by
  rw [State.poll_none (Terminal.kbdPoll_none_of_nextKey h.noKey)]
  refine ⟨h.running, h.idle, fun a => ?_, (Terminal.nextKey_dropDraw _).trans h.noKey⟩
  exact (Memory.read_write s.mem s.cfg.kbsrAddr a 0).trans (ite_eq_left_iff.2 fun _ => h.zero a)

theorem State.OnZeroSlide.memRead {s : State} (h : s.OnZeroSlide) (a : Word) :
    (s.memRead a).2.OnZeroSlide := by
  by_cases ha : a = s.cfg.kbsrAddr
  · subst ha
    rw [State.memRead_kbsr]
    exact h.poll
  · rw [State.memRead_plain ha]
    exact h

theorem State.OnZeroSlide.fetch {s : State} (h : s.OnZeroSlide) : s.fetch.OnZeroSlide :=
  have hr := h.memRead s.pc
  ⟨hr.running, hr.idle, hr.zero, hr.noKey⟩

/-- The zero word is a branch that no flag takes (R74). -/
theorem decode_zero : decode 0 = .br 0 0 := decode_br_of_row (by decide)

theorem exec_br_zero (s : State) (off9 : BitVec 9) : exec (.br 0 off9) s = .next s := by
  rw [exec_br, if_neg fun h => not_branchTaken_zero s.cond ((matches_iff_branchTaken s.cond 0).1 h)]

/-- On the slide a step is its fetch. -/
theorem State.OnZeroSlide.step {s : State} (h : s.OnZeroSlide) : step s = .next s.fetch := by
  have hir : s.fetch.ir = 0 := (s.memRead_fst s.pc).trans ((h.memRead s.pc).zero s.pc)
  rw [step_running h.running h.idle, State.current, hir, decode_zero, exec_br_zero]

/-- Any number of steps on the slide move PC and change nothing a program can see. -/
theorem State.OnZeroSlide.steps {s : State} (h : s.OnZeroSlide) (n : Nat) :
    ∃ t, Steps n s t ∧ t.pc = s.pc + BitVec.ofNat 16 n ∧ t.run = .running ∧ t.activity = .idle ∧
      KeepsRegs [] s t ∧ t.cond = s.cond ∧ KeepsMemory s t ∧ t.term.output = s.term.output := by
  induction n generalizing s with
  | zero =>
    exact ⟨s, .zero s, (BitVec.add_zero s.pc).symm, h.running, h.idle, fun _ _ => rfl, rfl, fun _ => rfl, rfl⟩
  | succ n ih =>
    have hf := h.fetch
    have hpc' : s.pc + 1 + BitVec.ofNat 16 n = s.pc + BitVec.ofNat 16 (n + 1) := by
      rw [BitVec.add_assoc, Nat.add_comm n 1, BitVec.ofNat_add]
      rfl
    obtain ⟨t, hsteps, hpc, hrun, hact, hregs, hcond, hmem, houtput⟩ := ih hf
    exact ⟨t, .succ h.step hsteps, hpc.trans hpc', hrun, hact, fun r hr => (hregs r hr).trans (s.fetch_reg r),
      hcond.trans s.fetch_cond, fun a => (hmem a).trans ((hf.zero a).trans (h.zero a).symm),
      houtput.trans (s.polled_memRead s.pc).output⟩

/-- Settles O58: n steps are n fetches. -/
theorem zeroedMemoryIsASlideOfNops : Obligations.ZeroedMemoryIsASlideOfNops :=
  fun n _ hr ha hzero hkey => State.OnZeroSlide.steps ⟨hr, ha, hzero, hkey⟩ n

end Sys2Proof.Machine
end
